-- ==== Sys2Proof/Word.lean ====
section
/-!
DEFINITION. The word types of the CHIP-8 CORE: widths of spec/00_scope.md R6 and spec/30_encoding.md R83, all unsigned (R10).
-/
namespace Sys2Proof

/-- A memory cell or the content of a general register: 8 bits (R20, R50). -/
abbrev Byte := BitVec 8

/-- An instruction word, a PC value or a call-stack entry: 16 bits (R26, R30, R80). -/
abbrev Word := BitVec 16

/-- The address register I, or an embedded address NNN: 12 bits (R24, R83). -/
abbrev Addr := BitVec 12

/-- A nibble count or a sub-operation selector: 4 bits (R83). -/
abbrev Nibble := BitVec 4

/-- The index of a general register V0 .. VF; all sixteen are legal (R20, R102). -/
abbrev VReg := Fin 16

end Sys2Proof
end

