-- ==== Sys2Proof/Syntax.lean ====
section
/-!
DEFINITION. The instruction set: one constructor per row of spec/opcode_table.json (spec/00_scope.md R2, spec/30_encoding.md R90, R100).
-/
namespace Sys2Proof

/-- The twelve supported operations with their typed operand fields (R83, R105), and the explicit Unknown variant.
`unknown` keeps the word it was read from, which R101 allows; no rule reads it. DESIGN CHOICE, safe: log entry 10. -/
inductive Instr where
  /-- `CLS`, clear screen (R170). -/
  | cls
  /-- `RET`, return from subroutine (R130). -/
  | ret
  /-- `JP NNN`, jump (R131). -/
  | jp (nnn : Addr)
  /-- `CALL NNN`, call subroutine (R132). -/
  | call (nnn : Addr)
  /-- `SE Vx, NN`, skip if equal (R133). -/
  | se (x : VReg) (nn : Byte)
  /-- `SNE Vx, NN`, skip if not equal (R134). -/
  | sne (x : VReg) (nn : Byte)
  /-- `LD Vx, NN`, set register to immediate (R150). -/
  | ldVxNN (x : VReg) (nn : Byte)
  /-- `ADD Vx, NN`, add immediate to register (R151). -/
  | addVxNN (x : VReg) (nn : Byte)
  /-- `LD Vx, Vy`, copy register y to register x (R152). -/
  | ldVxVy (x y : VReg)
  /-- `LD I, NNN`, set address register (R160). -/
  | ldINNN (nnn : Addr)
  /-- `DRW Vx, Vy, N`, draw an n-row sprite (R171). -/
  | drw (x y : VReg) (n : Nibble)
  /-- `ADD I, Vx`, add register to address register (R161). -/
  | addIVx (x : VReg)
  /-- Unknown: every word outside the opcode map (R100, R190). -/
  | unknown (word : Word)
  deriving DecidableEq, Repr

end Sys2Proof
end

