-- ==== Sys2Proof/WellFormed.lean ====
section
/-!
DEFINITION. Which instruction terms stand for an instruction word. Every operand value is legal (spec/30_encoding.md R102),
so the only check is on `unknown`: its word must lie outside the opcode map, read family by family as R91 lists it.
-/
namespace Sys2Proof

/-- R91: whether the family table gives word `w` to one of the twelve instructions, by a match on the top nibble. -/
def supportedWord (w : Word) : Bool :=
  match (w.extractLsb' 12 4).toNat with
  | 0x0 => w == 0x00E0 || w == 0x00EE
  | 0x1 | 0x2 | 0x3 | 0x4 | 0x6 | 0x7 | 0xA | 0xD => true
  | 0x8 => w.extractLsb' 0 4 == 0x0
  | 0xF => w.extractLsb' 0 8 == 0x1E
  | _ => false

/-- A term is well-formed when some word decodes to it. -/
def Instr.wf : Instr → Bool
  | .cls => true
  | .ret => true
  | .jp _ => true
  | .call _ => true
  | .se _ _ => true
  | .sne _ _ => true
  | .ldVxNN _ _ => true
  | .addVxNN _ _ => true
  | .ldVxVy _ _ => true
  | .ldINNN _ => true
  | .drw _ _ _ => true
  | .addIVx _ => true
  | .unknown w => !supportedWord w

end Sys2Proof
end

