-- ==== Sys2Proof/Decode.lean ====
section
/-!
DEFINITION. Fields, byte order, the opcode map, the decoder and the encoder of spec/30_encoding.md (R80 to R102).
The opcode values are the spec's decision D2 (log entry 1); they stand in `opcodeTable` and in `encode`, nowhere else.
-/
namespace Sys2Proof

/-! ## Fields of a word (R83, R84) -/

/-- `X = w[11:8]`. -/
def fieldX (w : Word) : VReg := (w.extractLsb' 8 4).toFin

/-- `Y = w[7:4]`. -/
def fieldY (w : Word) : VReg := (w.extractLsb' 4 4).toFin

/-- `N = w[3:0]`. -/
def fieldN (w : Word) : Nibble := w.extractLsb' 0 4

/-- `NN = w[7:0]`. -/
def fieldNN (w : Word) : Byte := w.extractLsb' 0 8

/-- `NNN = w[11:0]`. -/
def fieldNNN (w : Word) : Addr := w.extractLsb' 0 12

/-! ## Byte order (R53, R55): the byte at the lowest address is the most significant -/

/-- The unsigned value of bytes listed from the lowest address up. -/
def bigEndian (bytes : List Byte) : Nat := bytes.foldl (fun v b => v * 256 + b.toNat) 0

/-- The low `n` bytes of `v`, the most significant first. -/
def bigEndianBytes : (n : Nat) → (v : Nat) → List Byte
  | 0, _ => []
  | n + 1, v => BitVec.ofNat 8 (v / 256 ^ n) :: bigEndianBytes n v

/-! ## The opcode map (R90) -/

/-- One row of the map: a word is the row's instruction iff `w AND mask = value`; `build` reads its operand fields. -/
structure OpcodeRow where
  mnemonic : String
  mask : Word
  value : Word
  build : Word → Instr

/-- `(w AND mask) = match` (R90). -/
def rowMatches (r : OpcodeRow) (w : Word) : Bool := w &&& r.mask == r.value

/-- The twelve rows of R90, in its order. -/
def opcodeTable : List OpcodeRow :=
  [ ⟨"CLS", 0xFFFF, 0x00E0, fun _ => .cls⟩,
    ⟨"RET", 0xFFFF, 0x00EE, fun _ => .ret⟩,
    ⟨"JP", 0xF000, 0x1000, fun w => .jp (fieldNNN w)⟩,
    ⟨"CALL", 0xF000, 0x2000, fun w => .call (fieldNNN w)⟩,
    ⟨"SE", 0xF000, 0x3000, fun w => .se (fieldX w) (fieldNN w)⟩,
    ⟨"SNE", 0xF000, 0x4000, fun w => .sne (fieldX w) (fieldNN w)⟩,
    ⟨"LD_Vx__NN", 0xF000, 0x6000, fun w => .ldVxNN (fieldX w) (fieldNN w)⟩,
    ⟨"ADD_Vx__NN", 0xF000, 0x7000, fun w => .addVxNN (fieldX w) (fieldNN w)⟩,
    ⟨"LD_Vx__Vy", 0xF00F, 0x8000, fun w => .ldVxVy (fieldX w) (fieldY w)⟩,
    ⟨"LD_I__NNN", 0xF000, 0xA000, fun w => .ldINNN (fieldNNN w)⟩,
    ⟨"DRW", 0xF000, 0xD000, fun w => .drw (fieldX w) (fieldY w) (fieldN w)⟩,
    ⟨"ADD_I__Vx", 0xF0FF, 0xF01E, fun w => .addIVx (fieldX w)⟩ ]

/-! ## The decoder (R101): total and pure, Unknown for a word that matches no row (R100) -/

/-- The operation a word stands for under a map: the row it matches, or else Unknown. -/
def decodeWith (table : List OpcodeRow) (w : Word) : Instr :=
  match table.find? (rowMatches · w) with
  | some r => r.build w
  | none => .unknown w

/-- The operation a word stands for. -/
def decode (w : Word) : Instr := decodeWith opcodeTable w

/-- Why bytes are not an instruction. -/
inductive DecodeReject where
  /-- Fewer than the two bytes of an instruction (R80). Safe: the engine never decodes fewer (its fetch halts first, R112). -/
  | truncated
  deriving DecidableEq, Repr

/-- The instruction at the head of a byte stream, and the rest of the stream. -/
def decodeBytes : List Byte → Except DecodeReject (Instr × List Byte)
  | hi :: lo :: rest => .ok (decode (BitVec.ofNat 16 (bigEndian [hi, lo])), rest)
  | _ => .error .truncated

/-- The two bytes in memory order of the instruction whose low `nbits` bits are those of `w` and whose other bits are 0. -/
def tableWordBytes (nbits w : Nat) : List Byte := bigEndianBytes 2 (w % 2 ^ nbits)

/-- The instruction the decoder reads from the table word `w` of `nbits` bits. -/
def decodeTableWord (nbits w : Nat) : Option Instr :=
  match decodeBytes (tableWordBytes nbits w) with
  | .ok (i, _) => some i
  | .error _ => none

/-! ## The encoder, by the formats of R85 -/

/-- Format A: family and address. -/
def formatA (fam : Nibble) (nnn : Addr) : Word := fam ++ nnn

/-- Format XI: family, register and immediate byte. -/
def formatXI (fam : Nibble) (x : VReg) (nn : Byte) : Word := fam ++ (BitVec.ofFin x : Nibble) ++ nn

/-- Formats XY and XYN: family, two registers and the lowest nibble. -/
def formatXYN (fam : Nibble) (x y : VReg) (n : Nibble) : Word :=
  fam ++ (BitVec.ofFin x : Nibble) ++ (BitVec.ofFin y : Nibble) ++ n

/-- The word of an instruction (R85, R90). -/
def encode : Instr → Word
  | .cls => 0x00E0
  | .ret => 0x00EE
  | .jp nnn => formatA 0x1 nnn
  | .call nnn => formatA 0x2 nnn
  | .se x nn => formatXI 0x3 x nn
  | .sne x nn => formatXI 0x4 x nn
  | .ldVxNN x nn => formatXI 0x6 x nn
  | .addVxNN x nn => formatXI 0x7 x nn
  | .ldVxVy x y => formatXYN 0x8 x y 0x0
  | .ldINNN nnn => formatA 0xA nnn
  | .drw x y n => formatXYN 0xD x y n
  | .addIVx x => formatXI 0xF x 0x1E
  | .unknown w => w

/-- The bytes of an instruction in memory order (R55). -/
def encodeBytes (i : Instr) : List Byte := bigEndianBytes 2 (encode i).toNat

end Sys2Proof
end

