-- ==== Sys2Proof/Config.lean ====
section
/-!
DEFINITION. The implementation parameters of spec/00_scope.md R6 as one configuration record, with the values this hardware takes.
-/
namespace Sys2Proof

/-- The parameters of R6, one field each (MAX_IMAGE_BYTES is `Config.maxImageBytes`), and the opcode map, which the spec keeps in
the record too (D2). A claim can quantify over the parameters that 92_eei_decisions.md ends with: STACK_DEPTH by
`Machine.callWithin`, the opcode map and STACK_DEPTH together by `Machine.cycleOn`, SCREEN_W and SCREEN_H by the compositor
(`Machine.Canvas`), MEM_INIT by `Machine.State.resetWith`. The widths and counts are those of the types (Laws/Config.lean). -/
structure Config where
  /-- VREG_COUNT, the number of general registers (R20). -/
  vregCount : Nat
  /-- VREG_WIDTH, the bits of a general register (R20). -/
  vregWidth : Nat
  /-- I_WIDTH, the bits of the address register (R24). -/
  iWidth : Nat
  /-- PC_WIDTH, the bits of the program counter (R26). -/
  pcWidth : Nat
  /-- INSTR_BYTES, the bytes of one instruction (R80). -/
  instrBytes : Nat
  /-- MEM_SIZE, the number of memory cells (R50, D5). -/
  memSize : Nat
  /-- PROG_BASE, the load base and program entry address (R240). -/
  progBase : Nat
  /-- RESERVED_LO, the first address of the reserved interpreter region (R51). -/
  reservedLo : Nat
  /-- RESERVED_HI, the last address of the reserved interpreter region (R51). -/
  reservedHi : Nat
  /-- SCREEN_W, the columns of the frame buffer (R34, D3). -/
  screenW : Nat
  /-- SCREEN_H, the rows of the frame buffer (R34, D3). -/
  screenH : Nat
  /-- SPRITE_W, the columns of a sprite (R171). -/
  spriteW : Nat
  /-- MAX_SPRITE_ROWS, the most rows of a sprite (R83). -/
  maxSpriteRows : Nat
  /-- STACK_DEPTH, the largest depth of the call stack (R30, D4). -/
  stackDepth : Nat
  /-- STACK_ENTRY_WIDTH, the bits of a return address (R30, D33). -/
  stackEntryWidth : Nat
  /-- The default of the OPEN parameter MEM_INIT (R65, D21). DESIGN CHOICE, unsafe: log entry 2. -/
  memInit : Byte
  /-- The opcode map (R90, D2): log entry 1. -/
  opcodes : List OpcodeRow

/-- The values of R6. -/
def Config.chip8 : Config :=
  { vregCount := 16, vregWidth := 8, iWidth := 12, pcWidth := 16, instrBytes := 2, memSize := 4096, progBase := 0x200,
    reservedLo := 0x000, reservedHi := 0x1FF, screenW := 64, screenH := 32, spriteW := 8, maxSpriteRows := 15,
    stackDepth := 16, stackEntryWidth := 16, memInit := 0x00, opcodes := opcodeTable }

@[simp] theorem Config.chip8_vregCount : Config.chip8.vregCount = 16 := rfl
@[simp] theorem Config.chip8_vregWidth : Config.chip8.vregWidth = 8 := rfl
@[simp] theorem Config.chip8_iWidth : Config.chip8.iWidth = 12 := rfl
@[simp] theorem Config.chip8_pcWidth : Config.chip8.pcWidth = 16 := rfl
@[simp] theorem Config.chip8_instrBytes : Config.chip8.instrBytes = 2 := rfl
@[simp] theorem Config.chip8_memSize : Config.chip8.memSize = 4096 := rfl
@[simp] theorem Config.chip8_progBase : Config.chip8.progBase = 0x200 := rfl
@[simp] theorem Config.chip8_reservedLo : Config.chip8.reservedLo = 0x000 := rfl
@[simp] theorem Config.chip8_reservedHi : Config.chip8.reservedHi = 0x1FF := rfl
@[simp] theorem Config.chip8_screenW : Config.chip8.screenW = 64 := rfl
@[simp] theorem Config.chip8_screenH : Config.chip8.screenH = 32 := rfl
@[simp] theorem Config.chip8_spriteW : Config.chip8.spriteW = 8 := rfl
@[simp] theorem Config.chip8_maxSpriteRows : Config.chip8.maxSpriteRows = 15 := rfl
@[simp] theorem Config.chip8_stackDepth : Config.chip8.stackDepth = 16 := rfl
@[simp] theorem Config.chip8_stackEntryWidth : Config.chip8.stackEntryWidth = 16 := rfl
@[simp] theorem Config.chip8_memInit : Config.chip8.memInit = 0x00 := rfl
@[simp] theorem Config.chip8_opcodes : Config.chip8.opcodes = opcodeTable := rfl

/-- MAX_IMAGE_BYTES = MEM_SIZE - PROG_BASE (R6, R243). -/
def Config.maxImageBytes (c : Config) : Nat := c.memSize - c.progBase

@[simp] theorem Config.chip8_maxImageBytes : Config.chip8.maxImageBytes = 3584 := rfl

/-- The reserved interpreter region (R51): the loader never writes it; the engine may fetch and read there (D35). -/
abbrev Config.reserved (c : Config) (a : Nat) : Prop := c.reservedLo ≤ a ∧ a ≤ c.reservedHi

end Sys2Proof
end

