-- ==== Sys2Proof/Machine/State.lean ====
section
/-!
DEFINITION. The state of the CHIP-8 CORE as plain data (spec/10_state.md), its halt reasons, and the state after reset (R45).
-/
namespace Sys2Proof.Machine

/-- R40, R200: why a run has ended. `stackUnderflow` is the source's NormalReturnWithEmptyStack too (C1). -/
inductive HaltReason where
  | stackUnderflow
  | unknownInstruction
  | externalStop
  | addressingFault
  | imageTooLarge
  deriving DecidableEq, Repr

/-- R40: the run state, the only status register. -/
inductive RunState where
  | running
  | halted (reason : HaltReason)
  deriving DecidableEq, Repr

/-- The memory as a list of (address, byte): addresses strictly rising, none listed with the byte an unlisted address reads as. -/
abbrev Memory := List Host.Cell

/-- R34: the pixels of a screen of w columns and h rows, indexed `[y][x]`; `true` is set. -/
abbrev FrameBuffer (w h : Nat) := Vector (Vector Bool w) h

/-- The whole state (the tuple of 10_state.md), then two fields of the model's own. -/
structure State where
  /-- V0 .. VF; VF is index 15 (R20, R22). -/
  v : Vector Byte 16
  /-- The address register I (R24). -/
  i : Addr
  /-- The program counter (R26). -/
  pc : Word
  /-- The call stack, the top entry first (R30 writes it bottom first). -/
  stack : List Word
  /-- The frame buffer, SCREEN_W by SCREEN_H (R34, D3). The size is in the type: DESIGN CHOICE, safe: log entry 11. -/
  fb : FrameBuffer 64 32
  /-- The 4096 bytes of memory (R50). -/
  mem : Memory
  /-- The run state (R40). -/
  run : RunState
  /-- The model's own: the coming samples of the host's `stop` input, the next one first; past the end it is not asserted.
  DESIGN CHOICE, safe: log entry 3. -/
  stop : List Bool
  /-- The model's own: how many times `draw_done` has been signalled since reset (R180). DESIGN CHOICE, safe: log entry 4. -/
  drawDone : Nat
  deriving DecidableEq, Repr

/-- What stops the machine for good. -/
inductive Fault where
  /-- Raised by `step` on a state whose run has ended: such a state has no step (R41, R110), only a reset leaves it (R206).
  Safe: the hardware has no step there either. DEDUCED: log entry 5. -/
  | halted (reason : HaltReason)
  deriving DecidableEq, Repr

/-- What the model gives no meaning. -/
inductive Refusal where
  /-- Raised by an arm of `exec` whose instruction has no meaning yet; no arm does. Safe. -/
  | notModelled (mnemonic : String)
  /-- Raised by `State.resetWith` for an image of odd length: the loader refuses it, no run exists (R245, U7). Safe: log entry 6. -/
  | imageOddLength
  deriving DecidableEq, Repr

/-- R34, R45: every pixel 0. -/
def FrameBuffer.blank {w h : Nat} : FrameBuffer w h := Vector.replicate h (Vector.replicate w false)

/-- The machine right after reset (R45, R240, R241) with the empty image, which loads (R242), and MEM_INIT at its default
(R246). Nothing is listed in memory, the stop input is not asserted, and no draw has been signalled. -/
def State.reset : State :=
  { v := Vector.replicate 16 0
    i := 0
    pc := 0x0200
    stack := []
    fb := FrameBuffer.blank
    mem := []
    run := .running
    stop := []
    drawDone := 0 }

end Sys2Proof.Machine
end

