-- ==== Sys2Proof/Machine/Ops.lean ====
section
/-!
DEFINITION. The named operations over memory, registers, the call stack and the run state: the pseudocode primitives of
spec/00_scope.md R12, halt entry (spec/60_exceptions.md R204), the stop sample, the fetch, and reset with an image
(spec/70_reset_and_hazards.md).
-/
namespace Sys2Proof.Machine

/-! ## Memory (20_memory.md) -/

/-- What an address that the list does not hold reads as: MEM_INIT (R65). DESIGN CHOICE, unsafe: log entry 2. -/
def Memory.unlisted : Byte := Config.chip8.memInit

/-- The byte at an address. -/
def Memory.byteAt : Memory → Nat → Byte
  | [], _ => Memory.unlisted
  | (k, b) :: rest, a => if k = a then b else Memory.byteAt rest a

/-- Writes one byte and keeps the canonical form: writing what an unlisted address reads as removes the entry. -/
def Memory.setByte : Memory → Nat → Byte → Memory
  | [], a, b => if b = Memory.unlisted then [] else [(a, b)]
  | (k, c) :: rest, a, b =>
    if a < k then (if b = Memory.unlisted then (k, c) :: rest else (a, b) :: (k, c) :: rest)
    else if a = k then (if b = Memory.unlisted then rest else (a, b) :: rest)
    else (k, c) :: Memory.setByte rest a b

/-- The canonical form: addresses strictly rising and in the address space, no entry equal to what an unlisted address reads as. -/
abbrev Memory.wf (m : Memory) : Prop :=
  List.Pairwise (fun p q => p.1 < q.1) m ∧ ∀ c ∈ m, c.1 < Config.chip8.memSize ∧ c.2 ≠ Memory.unlisted

/-- R52, R53: an access of `n` bytes at `addr` is in bounds; an access of no byte always is. -/
def inBounds (addr n : Nat) : Bool := n == 0 || addr + n - 1 < Config.chip8.memSize

/-- The `n` bytes from `addr` up. -/
def Memory.bytesFrom (m : Memory) (addr n : Nat) : List Byte := (List.range n).map fun k => m.byteAt (addr + k)

/-- Writes bytes from `addr` up, in order. -/
def Memory.setBytes (m : Memory) (addr : Nat) : List Byte → Memory
  | [] => m
  | b :: rest => Memory.setBytes (m.setByte addr b) (addr + 1) rest

/-- The bytes of MemRead, the whole range checked first (R53, R59). -/
def Memory.readBytes (m : Memory) (addr n : Nat) : Except HaltReason (List Byte) :=
  if inBounds addr n then .ok (m.bytesFrom addr n) else .error .addressingFault

/-- `MemRead(addr, n)` (R53). -/
def Memory.memRead (m : Memory) (addr n : Nat) : Except HaltReason Nat :=
  (m.readBytes addr n).map bigEndian

/-- `MemWrite(addr, n, v)` (R54). -/
def Memory.memWrite (m : Memory) (addr n v : Nat) : Except HaltReason Memory :=
  if inBounds addr n then .ok (m.setBytes addr (bigEndianBytes n v)) else .error .addressingFault

/-- A memory holding `init a` at every address `a` of the address space. -/
@[irreducible] def Memory.filled (init : Nat → Byte) : Memory :=
  (List.range Config.chip8.memSize).filterMap fun a => if init a = Memory.unlisted then none else some (a, init a)

/-! ## Registers (10_state.md): every write narrows to the register's width -/

/-- `V[x]`. -/
def State.readV (s : State) (x : VReg) : Byte := s.v[x]

/-- `V[x] <- n` stores `n mod 256` (R21). -/
def State.writeV (s : State) (x : VReg) (n : Nat) : State := { s with v := s.v.set x (BitVec.ofNat 8 n) }

/-- `I <- n` stores `n mod 4096` (R24). -/
def State.writeI (s : State) (n : Nat) : State := { s with i := BitVec.ofNat 12 n }

/-- `pc <- n` stores `n mod 65536` (R27). -/
def State.writePC (s : State) (n : Nat) : State := { s with pc := BitVec.ofNat 16 n }

/-- Sequential advance, `pc <- PC + 2` (R27). -/
def State.advance (s : State) : State := s.writePC (s.pc.toNat + Config.chip8.instrBytes)

/-- A taken skip, `pc <- PC + 4` (R27). -/
def State.skip (s : State) : State := s.writePC (s.pc.toNat + 2 * Config.chip8.instrBytes)

/-! ## Call stack (R30 to R33) -/

/-- `push(a)` on a stack of at most `depth` entries (R31). -/
def State.pushWithin (depth : Nat) (s : State) (a : Nat) : Except HaltReason State :=
  if s.stack.length < depth then .ok { s with stack := BitVec.ofNat 16 a :: s.stack } else .error .addressingFault

/-- `push(a)` (R31). -/
def State.push (s : State) (a : Nat) : Except HaltReason State := s.pushWithin Config.chip8.stackDepth a

/-- `pop()` (R32). -/
def State.pop (s : State) : Except HaltReason (Word × State) :=
  match s.stack with
  | [] => .error .stackUnderflow
  | a :: rest => .ok (a, { s with stack := rest })

/-! ## Halts (60_exceptions.md) -/

/-- Halt entry (R204): `run <- Halted(r)` and nothing else changes. There is no return from a halt (R206); the one way out
is a reset, `State.hostReset` below. -/
def State.halt (s : State) (r : HaltReason) : State := { s with run := .halted r }

/-- R13, R115: an instruction's rule, run on `s`, either made all its writes or raised a reason before any of them. -/
def conclude (s : State) : Except HaltReason State → Host.Outcome State Fault Refusal
  | .ok t => .next t
  | .error r => .next (s.halt r)

/-- The 3-bit code of the `run_state` port (R201). -/
def RunState.code : RunState → BitVec 3
  | .running => 0
  | .halted .stackUnderflow => 1
  | .halted .unknownInstruction => 2
  | .halted .externalStop => 3
  | .halted .addressingFault => 4
  | .halted .imageTooLarge => 5

/-! ## The stop input and the fetch (R111, R112) -/

/-- The sample of `stop` that the next step takes. -/
def State.stopSample (s : State) : Bool := s.stop.headD false

/-- The state with that sample taken: it is not seen again (R43, R215). -/
def State.takeSample (s : State) : State := { s with stop := s.stop.tail }

/-- Stage 2: `w = MemRead(PC, 2)` (R112). -/
def State.fetch (s : State) : Except HaltReason Word :=
  (s.mem.memRead s.pc.toNat Config.chip8.instrBytes).map (BitVec.ofNat 16)

/-! ## The display sink (R8, R180) -/

/-- `draw_done` is signalled once. -/
def State.signalDrawDone (s : State) : State := { s with drawDone := s.drawDone + 1 }

/-- The frame-buffer snapshot the host can read at any time. -/
def State.snapshot (s : State) : FrameBuffer 64 32 := s.fb

/-! ## Reset and image load (R240 to R247) -/

/-- The load of R242: the image bytes in order from 0x200 over memory that holds `init`. -/
def loadedMemory (init : Nat → Byte) (image : List Byte) : Memory :=
  (Memory.filled init).setBytes Config.chip8.progBase image

/-- Reset with an image: `init a` is what cell `a` holds where the image does not cover it (MEM_INIT, one byte or a choice
per cell: R65, D21), `stop` the host's coming samples. The length bound is tested before the parity (R245). -/
def State.resetWith (init : Nat → Byte) (image : List Byte) (stop : List Bool) : Host.Outcome State Fault Refusal :=
  if Config.chip8.maxImageBytes < image.length then
    .next { State.reset with mem := Memory.filled init, run := .halted .imageTooLarge, stop := stop }
  else if image.length % 2 = 1 then .refused .imageOddLength
  else .next { State.reset with mem := loadedMemory init image, stop := stop }

/-- A reset applied to a machine in any state: it discards all of it (R247); the host's stop input is the host's. -/
def State.hostReset (init : Nat → Byte) (image : List Byte) (s : State) : Host.Outcome State Fault Refusal :=
  State.resetWith init image s.stop

/-! ## Placing one instruction for the next step -/

/-- `s` with an instruction's bytes where the next fetch reads them, and what that fetch needs besides: the run state
`Running`, the next stop sample not asserted, and a PC whose fetch is in bounds (0x200 where the PC's is not). -/
def State.placeWord (s : State) (nbits w : Nat) : State :=
  let pc := if inBounds s.pc.toNat Config.chip8.instrBytes then s.pc else BitVec.ofNat 16 Config.chip8.progBase
  { s with
    pc := pc
    mem := s.mem.setBytes pc.toNat (tableWordBytes nbits w)
    run := .running
    stop := if s.stopSample then false :: s.stop.tail else s.stop }

end Sys2Proof.Machine
end

