-- ==== Sys2Proof/Machine/Operands.lean ====
section
/-!
DEFINITION. The operand forms: every operand is read as an unsigned integer, exactly (spec/30_encoding.md R84,
spec/42_register_ops.md R153), and the write that stores a result narrows it.
-/
namespace Sys2Proof.Machine

/-- The immediate byte NN, widened with zeros. -/
def immediate (nn : Byte) : Nat := nn.toNat

/-- The embedded address NNN, a byte address used as it stands. -/
def embedded (nnn : Addr) : Nat := nnn.toNat

/-- The value of register x. -/
def State.value (s : State) (x : VReg) : Nat := (s.readV x).toNat

/-- The base of the one addressing mode, I plus row (R162). -/
def State.base (s : State) : Nat := s.i.toNat

/-- The row count N of a draw: 0 draws nothing (R177). -/
def rowCount (n : Nibble) : Nat := n.toNat

/-- A column of a screen of w columns: a plain sum reduced modulo SCREEN_W (R173). -/
def column (w : Nat) [NeZero w] (n : Nat) : Fin w := Fin.ofNat w n

/-- A row of a screen of h rows: a plain sum reduced modulo SCREEN_H (R173). -/
def screenRow (h : Nat) [NeZero h] (n : Nat) : Fin h := Fin.ofNat h n

end Sys2Proof.Machine
end

