-- ==== Sys2Proof/Machine/Flags.lean ====
section
/-!
DEFINITION. The flag of the machine: the collision flag in VF (spec/10_state.md R22, spec/44_display.md R174); and the
comparison the two skips make. No instruction computes a carry, overflow, zero or sign flag (R153).
-/
namespace Sys2Proof.Machine

/-- VF is `V[15]` (R22). -/
def vf : VReg := 15

/-- A collision: the sprite bit is 1 and the pixel was 1 (R174). -/
def collides (pixel bit : Bool) : Bool := pixel && bit

/-- VF <- 1 on a collision, else 0; the previous VF is overwritten in both cases (R171). -/
def State.writeCollision (s : State) (hit : Bool) : State := s.writeV vf (if hit then 1 else 0)

/-- Equality of two unsigned 8-bit values (R133, R153). -/
def State.regEquals (s : State) (x : VReg) (nn : Byte) : Bool := s.value x == immediate nn

end Sys2Proof.Machine
end

