-- ==== Sys2Proof/Machine/Address.lean ====
section
/-!
DEFINITION. Address-register operations (spec/43_address_register.md): LD I, NNN; ADD I, Vx. Neither writes a flag.
-/
namespace Sys2Proof.Machine

/-- R160. -/
def execLdINNN (nnn : Addr) (s : State) : Host.Outcome State Fault Refusal :=
  conclude s (.ok (s.writeI (embedded nnn)).advance)

/-- R161: adds the register's value, never the nibble; the sum wraps at 12 bits in the write. -/
def execAddIVx (x : VReg) (s : State) : Host.Outcome State Fault Refusal :=
  conclude s (.ok (s.writeI (s.base + s.value x)).advance)

end Sys2Proof.Machine
end

