-- ==== Sys2Proof/Machine/Control.lean ====
section
/-!
DEFINITION. Control transfer (spec/41_control_transfer.md): RET, JP, CALL, SE, SNE.
-/
namespace Sys2Proof.Machine

/-- R130: the popped address is the resume point, used as it stands; an empty stack halts. -/
def execRet (s : State) : Host.Outcome State Fault Refusal :=
  conclude s (s.pop.map fun (a, t) => t.writePC a.toNat)

/-- R131. -/
def execJp (nnn : Addr) (s : State) : Host.Outcome State Fault Refusal :=
  conclude s (.ok (s.writePC (embedded nnn)))

/-- R132 on a call stack of at most `depth` entries (the parameter STACK_DEPTH, D4): pushes PC + 2, then jumps; a full stack halts. -/
def callWithin (depth : Nat) (nnn : Addr) (s : State) : Host.Outcome State Fault Refusal :=
  conclude s ((s.pushWithin depth (s.pc.toNat + Config.chip8.instrBytes)).map fun t => t.writePC (embedded nnn))

/-- R132. -/
def execCall (nnn : Addr) (s : State) : Host.Outcome State Fault Refusal := callWithin Config.chip8.stackDepth nnn s

/-- R133. -/
def execSe (x : VReg) (nn : Byte) (s : State) : Host.Outcome State Fault Refusal :=
  conclude s (.ok (if s.regEquals x nn then s.skip else s.advance))

/-- R134. -/
def execSne (x : VReg) (nn : Byte) (s : State) : Host.Outcome State Fault Refusal :=
  conclude s (.ok (if s.regEquals x nn then s.advance else s.skip))

end Sys2Proof.Machine
end

