-- ==== Sys2Proof/Machine/Display.lean ====
section
/-!
DEFINITION. Display operations and the XOR compositor (spec/44_display.md): CLS, DRW. The compositor is written for a screen of
any size w by h (the parameters SCREEN_W and SCREEN_H, D3); the state's screen is 64 by 32 (log entry 11).
-/
namespace Sys2Proof.Machine

variable {w h : Nat}

/-- The pixel in row y, column x. -/
def FrameBuffer.pixel (fb : FrameBuffer w h) (y : Fin h) (x : Fin w) : Bool := fb[y][x]

/-- The pixel in row y, column x becomes its exclusive OR with a sprite bit. -/
def FrameBuffer.xorPixel (fb : FrameBuffer w h) (y : Fin h) (x : Fin w) (bit : Bool) : FrameBuffer w h :=
  fb.set y (fb[y].set x (xor fb[y][x] bit))

/-- The sprite bit with index `bit`: index 0 is the most significant bit of the byte (R172, the spec's decision D14). -/
def spriteBit (b : Byte) (bit : Nat) : Bool := b.getLsbD (7 - bit)

/-- What a draw has done so far: the pixels, and whether one went from set to unset. -/
structure Canvas (w h : Nat) where
  fb : FrameBuffer w h
  collision : Bool
  deriving DecidableEq, Repr

/-- One sprite bit at one pixel (R171, R174). -/
def Canvas.plot (c : Canvas w h) (y : Fin h) (x : Fin w) (bit : Bool) : Canvas w h :=
  { fb := c.fb.xorPixel y x bit, collision := c.collision || collides (c.fb.pixel y x) bit }

/-- The eight bits of one sprite row, bit index 0 first, from column vx (R171, R173). -/
def Canvas.drawRow [NeZero w] (c : Canvas w h) (vx : Nat) (y : Fin h) (b : Byte) : Canvas w h :=
  (List.range Config.chip8.spriteW).foldl (fun c bit => c.plot y (column w (vx + bit)) (spriteBit b bit)) c

/-- The sprite's rows in order, the first of them at screen row vy (R171, R173). -/
def Canvas.drawRows [NeZero w] [NeZero h] (c : Canvas w h) (vx vy : Nat) : List Byte → Canvas w h
  | [] => c
  | b :: rest => Canvas.drawRows (c.drawRow vx (screenRow h vy) b) vx (vy + 1) rest

/-- R170: every pixel 0; `draw_done` is not signalled. -/
def execCls (s : State) : Host.Outcome State Fault Refusal :=
  conclude s (.ok { s with fb := FrameBuffer.blank }.advance)

/-- The writes of a draw whose sprite bytes have been read: pixels, then VF, then PC, then `draw_done` (R171, R176). -/
def State.drawSprite (s : State) (vx vy : Nat) (rows : List Byte) : State :=
  let c := Canvas.drawRows { fb := s.fb, collision := false } vx vy rows
  (({ s with fb := c.fb }.writeCollision c.collision).advance).signalDrawDone

/-- R171, R175: V[x], V[y], I and the whole sprite are read before any write; out of bounds halts. -/
def execDrw (x y : VReg) (n : Nibble) (s : State) : Host.Outcome State Fault Refusal :=
  conclude s ((s.mem.readBytes s.base (rowCount n)).map fun rows => s.drawSprite (s.value x) (s.value y) rows)

end Sys2Proof.Machine
end

