-- ==== Sys2Proof/Machine/Register.lean ====
section
/-!
DEFINITION. Register operations (spec/42_register_ops.md): LD Vx, NN; ADD Vx, NN; LD Vx, Vy. None of them writes a flag.
-/
namespace Sys2Proof.Machine

/-- R150. -/
def execLdVxNN (x : VReg) (nn : Byte) (s : State) : Host.Outcome State Fault Refusal :=
  conclude s (.ok (s.writeV x (immediate nn)).advance)

/-- R151: the sum wraps at 8 bits in the write. -/
def execAddVxNN (x : VReg) (nn : Byte) (s : State) : Host.Outcome State Fault Refusal :=
  conclude s (.ok (s.writeV x (s.value x + immediate nn)).advance)

/-- R152: x is the destination, y the source. -/
def execLdVxVy (x y : VReg) (s : State) : Host.Outcome State Fault Refusal :=
  conclude s (.ok (s.writeV x (s.value y)).advance)

end Sys2Proof.Machine
end

