-- ==== Sys2Proof/Machine/Unknown.lean ====
section
/-!
DEFINITION. The Unknown operation (spec/45_unknown.md).
-/
namespace Sys2Proof.Machine

/-- R190: always halts with UnknownInstruction and changes nothing else; the word is not used. -/
def execUnknown (_ : Word) (s : State) : Host.Outcome State Fault Refusal :=
  conclude s (.error .unknownInstruction)

end Sys2Proof.Machine
end

