-- ==== Sys2Proof/Machine/Dispatch.lean ====
section
/-!
DEFINITION. Stage 4 of the step: the dispatch of a decoded instruction to its meaning (spec/40_step_cycle.md R114, R116).
-/
namespace Sys2Proof.Machine

def exec (i : Instr) (s : State) : Host.Outcome State Fault Refusal :=
  match i with
  | .cls => Sys2Proof.Machine.execCls s
  | .ret => Sys2Proof.Machine.execRet s
  | .jp nnn => Sys2Proof.Machine.execJp nnn s
  | .call nnn => Sys2Proof.Machine.execCall nnn s
  | .se x nn => Sys2Proof.Machine.execSe x nn s
  | .sne x nn => Sys2Proof.Machine.execSne x nn s
  | .ldVxNN x nn => Sys2Proof.Machine.execLdVxNN x nn s
  | .addVxNN x nn => Sys2Proof.Machine.execAddVxNN x nn s
  | .ldVxVy x y => Sys2Proof.Machine.execLdVxVy x y s
  | .ldINNN nnn => Sys2Proof.Machine.execLdINNN nnn s
  | .drw x y n => Sys2Proof.Machine.execDrw x y n s
  | .addIVx x => Sys2Proof.Machine.execAddIVx x s
  | .unknown w => Sys2Proof.Machine.execUnknown w s

end Sys2Proof.Machine
end

