-- ==== Sys2Proof/Machine/Cycle.lean ====
section
/-!
DEFINITION. The one transition of the machine, stage by stage (spec/40_step_cycle.md R110 to R116, spec/60_exceptions.md R203).
-/
namespace Sys2Proof.Machine

/-- How a decoded operation is executed. -/
abbrev Execute := Instr → State → Host.Outcome State Fault Refusal

/-- Stages 2 to 4, once the stop sample has been taken and was not asserted. -/
def fetchAndExecuteWith (dec : Word → Instr) (ex : Execute) (s : State) : Host.Outcome State Fault Refusal :=
  match s.fetch with
  | .error r => .next (s.halt r)
  | .ok w => ex (dec w) s

/-- R116. A halted machine has no step (R110). -/
def cycleWith (dec : Word → Instr) (ex : Execute) (s : State) : Host.Outcome State Fault Refusal :=
  match s.run with
  | .halted r => .fault (.halted r)
  | .running =>
    if s.stopSample then .next (s.takeSample.halt .externalStop) else fetchAndExecuteWith dec ex s.takeSample

/-- Stages 2 to 4 of this hardware. -/
def fetchAndExecute (s : State) : Host.Outcome State Fault Refusal := fetchAndExecuteWith decode exec s

/-- The step of this hardware. -/
def cycle (s : State) : Host.Outcome State Fault Refusal := cycleWith decode exec s

/-! ## The step at other parameters -/

/-- Execution with the call-stack depth of a configuration (STACK_DEPTH, D4): CALL alone depends on it. -/
def execOn (c : Config) : Execute
  | .call nnn, s => callWithin c.stackDepth nnn s
  | .cls, s => exec .cls s
  | .ret, s => exec .ret s
  | .jp nnn, s => exec (.jp nnn) s
  | .se x nn, s => exec (.se x nn) s
  | .sne x nn, s => exec (.sne x nn) s
  | .ldVxNN x nn, s => exec (.ldVxNN x nn) s
  | .addVxNN x nn, s => exec (.addVxNN x nn) s
  | .ldVxVy x y, s => exec (.ldVxVy x y) s
  | .ldINNN nnn, s => exec (.ldINNN nnn) s
  | .drw x y n, s => exec (.drw x y n) s
  | .addIVx x, s => exec (.addIVx x) s
  | .unknown w, s => exec (.unknown w) s

/-- The step with the opcode map and the call-stack depth of a configuration (D2, D4), so that a claim can quantify over them
(the end of 92_eei_decisions.md); the other fields of the configuration are not read. -/
def cycleOn (c : Config) (s : State) : Host.Outcome State Fault Refusal := cycleWith (decodeWith c.opcodes) (execOn c) s

end Sys2Proof.Machine
end

