-- ==== Sys2Proof/Machine/Step.lean ====
section
/-!
DEFINITION. The step, and the placing of one instruction where the next step fetches it.
-/
namespace Sys2Proof.Machine

/-- One step (R116). -/
def step (s : State) : Host.Outcome State Fault Refusal := cycle s

/-- `s` with the instruction of table word `w` (`nbits` bits) where the next step fetches and runs it. It stands for the
host's image load, the only way a program comes into memory (R242; log entry 7). -/
def State.withFetchWord (s : State) (nbits w : Nat) : State := s.placeWord nbits w

end Sys2Proof.Machine
end

