-- ==== Sys2Proof/Safety.lean ====
section
/-!
DEFINITION. What claims say of a run: the machine invariant, the even-PC property of R28, the halt table of R200 as a
predicate on the state before a step, and when an instruction completes.
-/
namespace Sys2Proof.Machine

/-- The invariant of every run: memory in canonical form, the call stack within its depth (R30), PC at most 0x1002 (R27), and
every stacked return address at most 0x1000 (R132: the largest PC a CALL is fetched at is 0x0FFE). -/
structure State.Inv (s : State) : Prop where
  memory : s.mem.wf
  depth : s.stack.length ≤ 16
  pcTop : s.pc.toNat ≤ 0x1002
  returns : ∀ a ∈ s.stack, a.toNat ≤ 0x1000

/-- R28: PC and every stacked return address are even. -/
structure State.Even (s : State) : Prop where
  pc : s.pc.toNat % 2 = 0
  returns : ∀ a ∈ s.stack, a.toNat % 2 = 0

/-- R28: the instruction is no JP or CALL with an odd address. -/
def Instr.evenTarget : Instr → Prop
  | .cls => True
  | .ret => True
  | .jp nnn => nnn.toNat % 2 = 0
  | .call nnn => nnn.toNat % 2 = 0
  | .se _ _ => True
  | .sne _ _ => True
  | .ldVxNN _ _ => True
  | .addVxNN _ _ => True
  | .ldVxVy _ _ => True
  | .ldINNN _ => True
  | .drw _ _ _ => True
  | .addIVx _ => True
  | .unknown _ => True

/-- The word the next fetch reads, where it is in bounds: the byte at PC in the high half (R55). -/
def State.wordAtPC (s : State) : Word := s.mem.byteAt s.pc.toNat ++ s.mem.byteAt (s.pc.toNat + 1)

/-- The bytes of an N-row sprite lie in the memory (R175). -/
abbrev State.spriteInBounds (s : State) (n : Nibble) : Prop := n = 0 ∨ s.i.toNat + n.toNat - 1 ≤ 0xFFF

/-- The table of R200, row by row, on the state before a step, with the priority of R203: the step from `s` halts with the
reason. ImageTooLarge has no row: a reset raises it, never a step. -/
inductive StepHalts (s : State) : HaltReason → Prop
  | externalStop (stop : s.stopSample = true) : StepHalts s .externalStop
  | fetch (go : s.stopSample = false) (pc : 0x0FFF ≤ s.pc.toNat) : StepHalts s .addressingFault
  | unknown (go : s.stopSample = false) (pc : s.pc.toNat < 0x0FFF) (w : Word) (op : decode s.wordAtPC = .unknown w) :
      StepHalts s .unknownInstruction
  | ret (go : s.stopSample = false) (pc : s.pc.toNat < 0x0FFF) (op : decode s.wordAtPC = .ret) (empty : s.stack = []) :
      StepHalts s .stackUnderflow
  | call (go : s.stopSample = false) (pc : s.pc.toNat < 0x0FFF) (nnn : Addr) (op : decode s.wordAtPC = .call nnn)
      (full : 16 ≤ s.stack.length) : StepHalts s .addressingFault
  | sprite (go : s.stopSample = false) (pc : s.pc.toNat < 0x0FFF) (x y : VReg) (n : Nibble)
      (op : decode s.wordAtPC = .drw x y n) (out : ¬ s.spriteInBounds n) : StepHalts s .addressingFault

end Sys2Proof.Machine
end

