-- ==== Sys2Proof/Certificates/Slice0/Obligations.lean ====
section
/-!
DEFINITION. The statements for the provers. Each docstring names the rule of spec/ the statement follows; where a clause rests on
a decision the spec marks as its own, or on a choice of the model's, the docstring names the decision or the log entry.
-/
open Sys2Proof Sys2Proof.Machine

/-! ## Encoding (30_encoding.md) -/

/-- Words of 95_test_vectors.md section 2.1 decode as listed there: one of each row, and neighbours that are Unknown. The opcode
values are the spec's decision D2 (log entry 1); that an Unknown term keeps its word is the model's choice (log entry 10). -/
def Obligations.DecodeOfSpecWords : Prop :=
  decode 0x00E0 = .cls ∧ decode 0x00EE = .ret ∧ decode 0x1FFF = .jp 0xFFF ∧ decode 0x2ABC = .call 0xABC ∧
  decode 0x3F00 = .se 15 0x00 ∧ decode 0x4AFF = .sne 10 0xFF ∧ decode 0x6C80 = .ldVxNN 12 0x80 ∧
  decode 0x7001 = .addVxNN 0 0x01 ∧ decode 0x8120 = .ldVxVy 1 2 ∧ decode 0xAFFF = .ldINNN 0xFFF ∧
  decode 0xDABF = .drw 10 11 15 ∧ decode 0xFF1E = .addIVx 15 ∧ decode 0xD000 = .drw 0 0 0 ∧
  decode 0x0000 = .unknown 0x0000 ∧ decode 0x01E0 = .unknown 0x01E0 ∧ decode 0x5120 = .unknown 0x5120 ∧
  decode 0x8121 = .unknown 0x8121 ∧ decode 0xF01F = .unknown 0xF01F ∧ decode 0xFFFF = .unknown 0xFFFF

/-- Decoding the word of a well-formed instruction gives it back, every operand at every value (R83, R85, R90, R102; the values
are the spec's decision D2, log entry 1). For the Unknown terms it rests on the model's choice to keep the word (log entry 10). -/
def Obligations.DecodeOfEncode : Prop :=
  ∀ i : Instr, i.wf = true → decode (encode i) = i

/-- Encoding what a word decodes to gives the word back, and what it decodes to is well-formed: no bit of any of the 65536 words
is dropped (R90, R100; decision D2, log entry 1). For an Unknown word, which R101 lets share one variant with every other, this clause
is the model's choice to keep the word (log entry 10). -/
def Obligations.EncodeOfDecode : Prop :=
  ∀ w : Word, encode (decode w) = w ∧ (decode w).wf = true

/-- "The rows are pairwise disjoint, so the order of testing does not matter" (R90, decision D2, log entry 1): whichever row a
word matches is the row it decodes by, and it is the only one. -/
def Obligations.MatchingRowDecodes : Prop :=
  ∀ r ∈ opcodeTable, ∀ w : Word, rowMatches r w = true →
    decode w = r.build w ∧ ∀ r' ∈ opcodeTable, rowMatches r' w = true → r'.mnemonic = r.mnemonic

/-- The mask-and-match map of R90 and the family table of R91 agree: a word decodes to Unknown exactly when the family table gives
it to no instruction (decision D2, log entry 1), and the term then keeps the word, the model's choice (log entry 10). -/
def Obligations.UnknownOutsideFamilyTable : Prop :=
  ∀ w : Word, ((∃ w', decode w = .unknown w') ↔ supportedWord w = false) ∧
    (supportedWord w = false → decode w = .unknown w)

/-- Two words decode to the same variant with the same operands exactly when they are the same word (R101). For Unknown words, which R101
lets share one variant, it is the model's choice to keep the word that makes the equivalence hold (log entry 10). -/
def Obligations.DecodeDistinguishesWords : Prop :=
  ∀ w w' : Word, decode w = decode w' ↔ w = w'

/-- The decoder on a byte stream: the first byte is the high byte (R55, R81), two bytes are used (R80), the rest is kept, fewer
than two are rejected by name, and the bytes of a well-formed instruction read back as it (for Unknown by the model's choice to keep
the word, log entry 10; opcode values by decision D2, log entry 1). -/
def Obligations.DecodeBytesHighByteFirst : Prop :=
  (∀ (hi lo : Byte) (rest : List Byte), decodeBytes (hi :: lo :: rest) = .ok (decode (hi ++ lo), rest)) ∧
  decodeBytes [] = .error .truncated ∧ (∀ b : Byte, decodeBytes [b] = .error .truncated) ∧
  (∀ (i : Instr) (rest : List Byte), i.wf = true → decodeBytes (encodeBytes i ++ rest) = .ok (i, rest))

/-! ## Registers (10_state.md) -/

/-- R21: a write of a general register stores the value modulo 256, and no other register changes. -/
def Obligations.RegisterWriteIsModulo256 : Prop :=
  ∀ (s : State) (x : VReg) (n : Nat),
    ((s.writeV x n).readV x).toNat = n % 256 ∧ (∀ y, y ≠ x → (s.writeV x n).readV y = s.readV y) ∧
    ∀ y, (s.readV y).toNat ≤ 255

/-- R24: a write of I stores the value modulo 4096; I is none of the general registers. -/
def Obligations.AddressRegisterWriteIsModulo4096 : Prop :=
  ∀ (s : State) (n : Nat),
    (s.writeI n).i.toNat = n % 4096 ∧ s.i.toNat ≤ 4095 ∧ (∀ x, (s.writeI n).readV x = s.readV x) ∧
    ∀ x m, (s.writeV x m).i = s.i

/-- PC arithmetic is modulo 65536: a write, a sequential advance and a taken skip (R27, the spec's decision D27). -/
def Obligations.ProgramCounterArithmetic : Prop :=
  ∀ (s : State) (n : Nat),
    (s.writePC n).pc.toNat = n % 65536 ∧ s.advance = { s with pc := s.pc + 2 } ∧ s.skip = { s with pc := s.pc + 4 }

/-! ## Call stack (10_state.md section 4) -/

/-- Below the depth bound a push adds exactly its value on top; at the bound it raises AddressingFault: whatever STACK_DEPTH is, and at
this hardware's 16 (R31, R6, the spec's decisions D4, D12). -/
def Obligations.PushIsBounded : Prop :=
  ∀ (s : State) (a : Nat),
    (∀ depth, s.stack.length < depth → s.pushWithin depth a = .ok { s with stack := BitVec.ofNat 16 a :: s.stack }) ∧
    (∀ depth, depth ≤ s.stack.length → s.pushWithin depth a = .error .addressingFault) ∧
    (s.stack.length < 16 → s.push a = .ok { s with stack := BitVec.ofNat 16 a :: s.stack }) ∧
    (16 ≤ s.stack.length → s.push a = .error .addressingFault)

/-- R32: pop on an empty stack raises StackUnderflow, else returns the top and removes exactly it; only RET pops; a return with an
empty stack is a terminal condition in which nothing else changes. -/
def Obligations.PopTakesTheTop : Prop :=
  (∀ s : State, s.stack = [] →
    s.pop = .error .stackUnderflow ∧ exec .ret s = .next { s with run := .halted .stackUnderflow }) ∧
  (∀ (s : State) (a : Word) (rest : List Word), s.stack = a :: rest → s.pop = .ok (a, { s with stack := rest })) ∧
  (∀ (i : Instr) (s t : State), exec i s = .next t → t.stack.length < s.stack.length →
    i = .ret ∧ s.stack.length = t.stack.length + 1)

/-! ## Memory and fetch (20_memory.md, 40_step_cycle.md) -/

/-- MemRead (R53, R60) checks the whole range, then assembles the bytes big-endian (its base-256 digits, the byte at the lowest address
first, are the bytes); a cell reads as what it was last given; and a step changes no cell. -/
def Obligations.MemReadIsBigEndian : Prop :=
  (∀ (m : Memory) (addr n : Nat), 1 ≤ n → 0xFFF < addr + n - 1 → m.memRead addr n = .error .addressingFault) ∧
  (∀ (m : Memory) (addr n : Nat), 1 ≤ n → addr + n - 1 ≤ 0xFFF →
    ∃ v, m.memRead addr n = .ok v ∧ v < 256 ^ n ∧
      ∀ k, k < n → v / 256 ^ (n - 1 - k) % 256 = (m.byteAt (addr + k)).toNat) ∧
  (∀ (m : Memory) (a : Nat) (b : Byte), m.wf → a ≤ 0xFFF →
    (m.setByte a b).memRead a 1 = .ok b.toNat ∧ ∀ a', a' ≠ a → (m.setByte a b).byteAt a' = m.byteAt a') ∧
  (∀ s t : State, step s = .next t → ∀ a, t.mem.byteAt a = s.mem.byteAt a)

/-- MemWrite (R54; no instruction uses it): out of bounds it writes nothing; in bounds it stores the bytes of the value, the
highest at the lowest address, leaves every other byte alone and keeps the canonical form. -/
def Obligations.MemWriteStoresBigEndian : Prop :=
  ∀ (m : Memory) (addr n v : Nat), m.wf → 1 ≤ n →
    (0xFFF < addr + n - 1 → m.memWrite addr n v = .error .addressingFault) ∧
    (addr + n - 1 ≤ 0xFFF →
      ∃ m', m.memWrite addr n v = .ok m' ∧ m'.wf ∧
        (∀ k, k < n → (m'.byteAt (addr + k)).toNat = v / 256 ^ (n - 1 - k) % 256) ∧
        ∀ a, a < addr ∨ addr + n ≤ a → m'.byteAt a = m.byteAt a)

/-- Two memories in canonical form that read alike at every address are equal data (R50: the memory is its 4096 bytes; the list
form is the model's, log entry 2). -/
def Obligations.EqualReadsEqualMemories : Prop :=
  ∀ m m' : Memory, m.wf → m'.wf → (∀ a, a ≤ 0xFFF → m.byteAt a = m'.byteAt a) → m = m'

/-- R55: the fetched word has the byte at PC in its high half and the byte at PC + 1 in its low half, whatever the state; so the
first two bytes of an image that loads are the high and the low byte of the first instruction. -/
def Obligations.FetchIsBigEndian : Prop :=
  (∀ s : State, s.pc.toNat + 1 ≤ 0xFFF →
    ∃ w, s.fetch = .ok w ∧ w.extractLsb' 8 8 = s.mem.byteAt s.pc.toNat ∧
      w.extractLsb' 0 8 = s.mem.byteAt (s.pc.toNat + 1)) ∧
  (∀ (init : Nat → Byte) (hi lo : Byte) (rest : List Byte) (stop : List Bool) (t : State),
    State.resetWith init (hi :: lo :: rest) stop = .next t → t.run = .running → t.fetch = .ok (hi ++ lo))

/-- A step runs the decoded instruction: running, no stop sampled, and the two bytes at PC decode to the well-formed `i`: the step
is `exec i`. Around it the step only takes the stop sample (`takeSample`, log entry 3); PC is moved by the instruction (R114). And
the step is `cycleOn`, the step with the opcode map and stack depth of a configuration, at the values of R6. -/
def Obligations.StepRunsDecodedInstruction : Prop :=
  (∀ (s : State), step s = cycleOn Config.chip8 s) ∧
  ∀ (s : State) (i : Instr), i.wf = true → s.run = .running → s.stopSample = false → s.pc.toNat < 0x0FFF →
    decode (s.mem.byteAt s.pc.toNat ++ s.mem.byteAt (s.pc.toNat + 1)) = i → step s = exec i s.takeSample

/-- At PC >= 0x0FFF the fetch halts with AddressingFault and nothing else changes; below it the word is
mem[PC] ++ mem[PC+1], PC even or odd, and the fetch changes no state (R112; that PC stays is the spec's decision D8, the stop sample taken is
the model's input, log entry 3). -/
def Obligations.FetchBounds : Prop :=
  ∀ s : State, s.run = .running → s.stopSample = false →
    (0x0FFF ≤ s.pc.toNat → step s = .next { s with stop := s.stop.tail, run := .halted .addressingFault }) ∧
    (s.pc.toNat < 0x0FFF →
      step s = exec (decode (s.mem.byteAt s.pc.toNat ++ s.mem.byteAt (s.pc.toNat + 1))) { s with stop := s.stop.tail })

/-- An asserted stop sample halts with ExternalStop before anything is fetched, whatever PC and the word there are (R111, R203,
R215; once a step is the spec's decision D11, the priority D10; the sample list is log entry 3). -/
def Obligations.StopHaltsBeforeFetch : Prop :=
  ∀ s : State, s.run = .running → s.stopSample = true →
    step s = .next { s with stop := s.stop.tail, run := .halted .externalStop }

/-- A state has no step exactly when its run has ended (R41, R110, the spec's decision D24): the model answers the fault `halted`
with the reason (log entry 5). -/
def Obligations.HaltedStateHasNoStep : Prop :=
  ∀ (s : State) (r : HaltReason), step s = .fault (.halted r) ↔ s.run = .halted r

/-- A running machine always has a step, and every instruction completes or halts in a next state: none is refused (R229, R110,
R115). -/
def Obligations.RunningStateAlwaysSteps : Prop :=
  (∀ s : State, s.run = .running → ∃ t, step s = .next t) ∧ ∀ (i : Instr) (s : State), ∃ t, exec i s = .next t

/-- A step is atomic: the machine is still running, or nothing but the run state differs (R13, R115; that PC stays too is the
spec's decision D8). The stop sample taken is the model's input (log entry 3). -/
def Obligations.StepIsAtomic : Prop :=
  ∀ s t : State, step s = .next t →
    t.run = .running ∨ ∃ r, t = { s with stop := s.stop.tail, run := .halted r }

/-- A step halts exactly by the rows of the table of R200, with the priority of R203 (the spec's decisions D10, D12, D13). -/
def Obligations.HaltReasonsAreTheTable : Prop :=
  ∀ s t : State, step s = .next t → ∀ r : HaltReason, t.run = .halted r ↔ StepHalts s r

/-- The instruction placed by `withFetchWord` is the one the next step runs, from every state whose memory is canonical. It stands
for the image load (R242; log entry 7). -/
def Obligations.PlacedWordRunsNext : Prop :=
  ∀ (s : State) (w : Nat), s.mem.wf →
    step (s.withFetchWord 16 w) = exec (decode (BitVec.ofNat 16 w)) (s.withFetchWord 16 w).takeSample

/-! ## What a step does not depend on -/

/-- A step reads no stop sample but its own (R118, derived there): later samples only stay in the list. -/
def Obligations.LaterStopSamplesUnread : Prop :=
  ∀ (s t : State) (b : Bool) (later : List Bool), step { s with stop := [b] } = .next t →
    step { s with stop := b :: later } = .next { t with stop := later }

/-- `draw_done` has no effect on any state: the count of signals only rises beside it (R180, the spec's decision D23; the count is
log entry 4). -/
def Obligations.DrawDoneIsUnobserved : Prop :=
  ∀ (s t : State) (k : Nat), step s = .next t →
    step { s with drawDone := s.drawDone + k } = .next { t with drawDone := t.drawDone + k }

/-- No instruction reads a pixel other than through the collision flag (R36): on another frame buffer an instruction answers the
same state but for the frame buffer, and for VF where it is DRW. -/
def Obligations.FrameBufferIsUnobserved : Prop :=
  ∀ (i : Instr) (s t : State) (fb : FrameBuffer 64 32), exec i s = .next t →
    ∃ t', exec i { s with fb := fb } = .next t' ∧
      { t' with fb := t.fb, v := t.v } = t ∧ (∀ x, x ≠ 15 → t'.readV x = t.readV x) ∧
      ((∀ x y n, i ≠ .drw x y n) → t'.v = t.v)

/-! ## Control transfer (41_control_transfer.md) -/

/-- RET with an entry on the stack: PC is the popped address as it stands, and nothing else changes (R130). -/
def Obligations.ReturnPopsIntoPC : Prop :=
  ∀ (s : State) (a : Word) (rest : List Word), s.stack = a :: rest → exec .ret s = .next { s with pc := a, stack := rest }

/-- JP sets PC to exactly the embedded address, odd or even, and changes nothing else (R131). -/
def Obligations.JumpSetsPC : Prop :=
  ∀ (nnn : Addr) (s : State), exec (.jp nnn) s = .next { s with pc := nnn.setWidth 16 }

/-- CALL below the depth bound pushes PC + 2, untruncated, and sets PC to the embedded address, whatever STACK_DEPTH a configuration
has, and at this hardware's 16 (R132, R6; the depth 16 is the spec's decision D4, the 16-bit entry D33). -/
def Obligations.CallPushesReturnAddress : Prop :=
  ∀ (nnn : Addr) (s : State),
    (∀ c : Config, s.stack.length < c.stackDepth →
      execOn c (.call nnn) s = .next { s with pc := nnn.setWidth 16, stack := (s.pc + 2) :: s.stack }) ∧
    (s.stack.length < 16 → exec (.call nnn) s = .next { s with pc := nnn.setWidth 16, stack := (s.pc + 2) :: s.stack })

/-- CALL on a full stack halts with AddressingFault and changes nothing else, whatever STACK_DEPTH a configuration has, and at this
hardware's 16 (R132, R6, the spec's decisions D4, D12). -/
def Obligations.CallOnFullStackHalts : Prop :=
  ∀ (nnn : Addr) (s : State),
    (∀ c : Config, c.stackDepth ≤ s.stack.length →
      execOn c (.call nnn) s = .next { s with run := .halted .addressingFault }) ∧
    (16 ≤ s.stack.length → exec (.call nnn) s = .next { s with run := .halted .addressingFault })

/-- SE adds 4 to PC when the register equals the immediate, else 2, and changes nothing else (R133). -/
def Obligations.SkipIfEqualAdvances : Prop :=
  ∀ (x : VReg) (nn : Byte) (s : State),
    exec (.se x nn) s = .next { s with pc := s.pc + if (s.readV x).toNat = nn.toNat then 4 else 2 }

/-- SNE adds 4 to PC when the register differs from the immediate, else 2, and changes nothing else (R134); so exactly one of SE and
SNE skips. -/
def Obligations.SkipIfNotEqualAdvances : Prop :=
  ∀ (x : VReg) (nn : Byte) (s : State),
    exec (.sne x nn) s = .next { s with pc := s.pc + if (s.readV x).toNat ≠ nn.toNat then 4 else 2 }

/-- What RET, JP, CALL, SE and SNE leave unchanged whenever they answer a next state: every general register, I, every pixel, every
byte of memory, the stop samples and the draw count; and JP, SE and SNE the call stack and the run state too (R23, R25, R29, R36). -/
def Obligations.ControlTransferFrame : Prop :=
  ∀ (i : Instr) (s t : State),
    (i = .ret ∨ (∃ nnn, i = .call nnn) ∨ (∃ nnn, i = .jp nnn) ∨ (∃ x nn, i = .se x nn) ∨ (∃ x nn, i = .sne x nn)) →
    exec i s = .next t →
    (∀ x, t.readV x = s.readV x) ∧ t.i = s.i ∧ (∀ y x, t.fb.pixel y x = s.fb.pixel y x) ∧
    (∀ a, t.mem.byteAt a = s.mem.byteAt a) ∧ t.stop = s.stop ∧ t.drawDone = s.drawDone ∧
    ((i ≠ .ret ∧ ∀ nnn, i ≠ .call nnn) → t.stack = s.stack ∧ t.run = s.run)

/-! ## Register operations (42_register_ops.md) -/

/-- LD Vx, NN stores the immediate in register x, VF included (R150, the spec's decision D32), and advances PC by 2. -/
def Obligations.LoadImmediateSetsRegister : Prop :=
  ∀ (x : VReg) (nn : Byte) (s : State),
    ∃ t, exec (.ldVxNN x nn) s = .next t ∧ t.readV x = nn ∧ (∀ y, y ≠ x → t.readV y = s.readV y) ∧
      t = { s with v := t.v, pc := s.pc + 2 }

/-- ADD Vx, NN stores the sum modulo 256 in register x, writes no flag anywhere, and advances PC by 2 (R151). -/
def Obligations.AddImmediateWraps : Prop :=
  ∀ (x : VReg) (nn : Byte) (s : State),
    ∃ t, exec (.addVxNN x nn) s = .next t ∧ (t.readV x).toNat = ((s.readV x).toNat + nn.toNat) % 256 ∧
      (∀ y, y ≠ x → t.readV y = s.readV y) ∧ t = { s with v := t.v, pc := s.pc + 2 }

/-- LD Vx, Vy stores register y in register x and advances PC by 2; x = y changes only PC (R152; that x is the destination is the
spec's decision D19). -/
def Obligations.CopyRegisterSetsDestination : Prop :=
  ∀ (x y : VReg) (s : State),
    ∃ t, exec (.ldVxVy x y) s = .next t ∧ t.readV x = s.readV y ∧ (∀ z, z ≠ x → t.readV z = s.readV z) ∧
      t = { s with v := t.v, pc := s.pc + 2 }

/-- What the three register operations leave unchanged: every register but x, I, the stack, every pixel, every byte of memory, the
run state, the stop samples and the draw count (R23, R151: no flag). -/
def Obligations.RegisterOperationFrame : Prop :=
  ∀ (x y : VReg) (nn : Byte) (i : Instr) (s t : State), (i = .ldVxNN x nn ∨ i = .addVxNN x nn ∨ i = .ldVxVy x y) →
    exec i s = .next t →
    (∀ z, z ≠ x → t.readV z = s.readV z) ∧ t.i = s.i ∧ t.stack = s.stack ∧
    (∀ py px, t.fb.pixel py px = s.fb.pixel py px) ∧ (∀ a, t.mem.byteAt a = s.mem.byteAt a) ∧
    t.run = s.run ∧ t.stop = s.stop ∧ t.drawDone = s.drawDone

/-! ## Address register (43_address_register.md) -/

/-- LD I, NNN sets I to the embedded address, advances PC by 2 and changes nothing else (R160). -/
def Obligations.LoadAddressRegister : Prop :=
  ∀ (nnn : Addr) (s : State), exec (.ldINNN nnn) s = .next { s with i := nnn, pc := s.pc + 2 }

/-- ADD I, Vx adds the register's value to I modulo 4096, writes no flag, advances PC by 2 and changes nothing else (R161; that VF
stays is the spec's decision D18). -/
def Obligations.AddToAddressRegisterWraps : Prop :=
  ∀ (x : VReg) (s : State),
    ∃ t, exec (.addIVx x) s = .next t ∧ t.i.toNat = (s.i.toNat + (s.readV x).toNat) % 4096 ∧
      t = { s with i := t.i, pc := s.pc + 2 }

/-- What the two address-register operations leave unchanged: every general register (VF too), the stack, every pixel, every byte of
memory, the run state, the stop samples and the draw count (R23, R25; VF by the spec's decision D18). -/
def Obligations.AddressOperationFrame : Prop :=
  ∀ (nnn : Addr) (x : VReg) (i : Instr) (s t : State), (i = .ldINNN nnn ∨ i = .addIVx x) → exec i s = .next t →
    (∀ z, t.readV z = s.readV z) ∧ t.stack = s.stack ∧ (∀ py px, t.fb.pixel py px = s.fb.pixel py px) ∧
    (∀ a, t.mem.byteAt a = s.mem.byteAt a) ∧ t.run = s.run ∧ t.stop = s.stop ∧ t.drawDone = s.drawDone

/-! ## Display (44_display.md) -/

/-- CLS clears every pixel, advances PC by 2 and changes nothing else: no register, no flag, no draw_done (R170). -/
def Obligations.ClearScreenClearsEveryPixel : Prop :=
  ∀ s : State, ∃ t, exec .cls s = .next t ∧ (∀ y x, t.fb.pixel y x = false) ∧
    t = { s with fb := t.fb, pc := s.pc + 2 }

/-- DRW whose sprite is in bounds completes. Bit `bit` of sprite row `row` is XORed into the pixel at
((Vx + bit) mod 64, (Vy + row) mod 32), with the coordinates, I and the sprite read before any write; every other pixel keeps its
value; VF is 1 if some sprite bit is 1 where the pixel was 1, else 0; PC advances by 2; draw_done is signalled once; nothing else
changes (R171, R173, R174; bit index 0 is the most significant bit by the spec's decision D14, the order of reads D15, the screen
size D3, the signal D23; its count is log entry 4). -/
def Obligations.DrawComposesSprite : Prop :=
  ∀ (x y : VReg) (n : Nibble) (s : State), s.spriteInBounds n →
    ∃ t, exec (.drw x y n) s = .next t ∧
      (∀ row bit, row < n.toNat → bit < 8 →
        t.fb.pixel (Fin.ofNat 32 ((s.readV y).toNat + row)) (Fin.ofNat 64 ((s.readV x).toNat + bit)) =
          xor (s.fb.pixel (Fin.ofNat 32 ((s.readV y).toNat + row)) (Fin.ofNat 64 ((s.readV x).toNat + bit)))
            ((s.mem.byteAt (s.i.toNat + row)).getLsbD (7 - bit))) ∧
      (∀ py px, (∀ row bit, row < n.toNat → bit < 8 →
          py ≠ Fin.ofNat 32 ((s.readV y).toNat + row) ∨ px ≠ Fin.ofNat 64 ((s.readV x).toNat + bit)) →
        t.fb.pixel py px = s.fb.pixel py px) ∧
      ((∃ row bit, row < n.toNat ∧ bit < 8 ∧ (s.mem.byteAt (s.i.toNat + row)).getLsbD (7 - bit) = true ∧
          s.fb.pixel (Fin.ofNat 32 ((s.readV y).toNat + row)) (Fin.ofNat 64 ((s.readV x).toNat + bit)) = true) →
        t.readV 15 = 1) ∧
      ((¬ ∃ row bit, row < n.toNat ∧ bit < 8 ∧ (s.mem.byteAt (s.i.toNat + row)).getLsbD (7 - bit) = true ∧
          s.fb.pixel (Fin.ofNat 32 ((s.readV y).toNat + row)) (Fin.ofNat 64 ((s.readV x).toNat + bit)) = true) →
        t.readV 15 = 0) ∧
      (∀ z, z ≠ 15 → t.readV z = s.readV z) ∧
      t = { s with v := t.v, fb := t.fb, pc := s.pc + 2, drawDone := s.drawDone + 1 }

/-- In a draw that completes, a pixel goes from 1 to 0 exactly where it was 1 and a sprite bit that is 1 lands on it; VF is 1 if
this happened to at least one pixel and 0 otherwise, whatever VF was before (R174; which pixel a sprite bit lands on rests on the
spec's decision D14). -/
def Obligations.CollisionIsSetToUnset : Prop :=
  ∀ (x y : VReg) (n : Nibble) (s : State), s.spriteInBounds n →
    ∃ t, exec (.drw x y n) s = .next t ∧ t.run = s.run ∧
      ((∃ py px, s.fb.pixel py px = true ∧ t.fb.pixel py px = false) → t.readV 15 = 1) ∧
      ((∀ py px, s.fb.pixel py px = true → t.fb.pixel py px = true) → t.readV 15 = 0) ∧
      ∀ py px, (s.fb.pixel py px = true ∧ t.fb.pixel py px = false) ↔
        (s.fb.pixel py px = true ∧ ∃ row bit, row < n.toNat ∧ bit < 8 ∧
          py.val = ((s.readV y).toNat + row) % 32 ∧ px.val = ((s.readV x).toNat + bit) % 64 ∧
          (s.mem.byteAt (s.i.toNat + row)).getLsbD (7 - bit) = true)

/-- A draw whose sprite passes the end of memory halts with AddressingFault before any effect (R175, the spec's decision D13). -/
def Obligations.DrawOutOfBoundsHalts : Prop :=
  ∀ (x y : VReg) (n : Nibble) (s : State), 1 ≤ n.toNat → 0xFFF < s.i.toNat + n.toNat - 1 →
    exec (.drw x y n) s = .next { s with run := .halted .addressingFault }

/-- A draw of no rows: VF is 0, PC advances by 2, draw_done is signalled, nothing else changes, wherever I points (R177, the spec's
decision D16; the count of the signal is log entry 4). -/
def Obligations.DrawOfNoRows : Prop :=
  ∀ (x y : VReg) (s : State),
    ∃ t, exec (.drw x y 0) s = .next t ∧ t.readV 15 = 0 ∧ (∀ z, z ≠ 15 → t.readV z = s.readV z) ∧
      t = { s with v := t.v, pc := s.pc + 2, drawDone := s.drawDone + 1 }

/-- Two identical completed draws (x and y not VF, so that the coordinates stay) restore the frame buffer exactly, and the second
reports a collision exactly where the first set a pixel: VF is 1 if the first set at least one, else 0 (the source's sentence S5 that
R178 quotes). Where the first draw did not collide, the second draw's VF is 1 exactly when the sprite has a 1 bit: this is R178's last
sentence in the case that follows from R171 and R174; where every 1 bit of the sprite met a set pixel in the first
draw it contradicts them (log entry 9). -/
def Obligations.DrawTwiceRestores : Prop :=
  ∀ (x y : VReg) (n : Nibble) (s : State), x ≠ 15 → y ≠ 15 → s.spriteInBounds n →
    ∃ t u, exec (.drw x y n) s = .next t ∧ exec (.drw x y n) t = .next u ∧ u.fb = s.fb ∧
      (∀ py px, s.fb.pixel py px = false ∧ t.fb.pixel py px = true ↔
        t.fb.pixel py px = true ∧ u.fb.pixel py px = false) ∧
      ((∃ py px, s.fb.pixel py px = false ∧ t.fb.pixel py px = true) → u.readV 15 = 1) ∧
      ((¬ ∃ py px, s.fb.pixel py px = false ∧ t.fb.pixel py px = true) → u.readV 15 = 0) ∧
      (t.readV 15 = 0 → (u.readV 15 = 1 ↔
        ∃ row bit, row < n.toNat ∧ bit < 8 ∧ (s.mem.byteAt (s.i.toNat + row)).getLsbD (7 - bit) = true))

/-- What CLS and DRW leave unchanged: every register but VF (CLS: VF too), I, the stack, every byte of memory, the stop samples; DRW
alone counts draw_done, and only where it does not halt (R23, R25, R36, R176; the count is log entry 4). -/
def Obligations.DisplayFrame : Prop :=
  ∀ (x y : VReg) (n : Nibble) (i : Instr) (s t : State), (i = .cls ∨ i = .drw x y n) → exec i s = .next t →
    (∀ z, z ≠ 15 ∨ i = .cls → t.readV z = s.readV z) ∧ t.i = s.i ∧ t.stack = s.stack ∧
    (∀ a, t.mem.byteAt a = s.mem.byteAt a) ∧ t.stop = s.stop ∧
    (i = .cls → t.run = s.run ∧ t.drawDone = s.drawDone) ∧
    (i = .drw x y n → t.run = s.run ∧ t.drawDone = s.drawDone + 1 ∨ t.run = .halted .addressingFault ∧ t.drawDone = s.drawDone)

/-! ## Unknown (45_unknown.md) -/

/-- Unknown halts with UnknownInstruction whatever the word, and changes nothing else; so a running machine that fetches a word
outside the map halts so (R190, R100; that PC stays is the spec's decision D8). -/
def Obligations.UnknownHaltsAlone : Prop :=
  (∀ (w : Word) (s : State), exec (.unknown w) s = .next { s with run := .halted .unknownInstruction }) ∧
  (∀ s : State, s.run = .running → s.stopSample = false → s.pc.toNat < 0x0FFF → supportedWord s.wordAtPC = false →
    step s = .next { s with stop := s.stop.tail, run := .halted .unknownInstruction })

/-! ## Whole-machine rules -/

/-- No instruction writes memory: it is constant over a step (R60, the spec's decision D26). -/
def Obligations.NoInstructionWritesMemory : Prop :=
  (∀ (i : Instr) (s t : State), exec i s = .next t → t.mem = s.mem ∧ ∀ a, t.mem.byteAt a = s.mem.byteAt a) ∧
  (∀ s t : State, step s = .next t → t.mem = s.mem)

/-- What a step never does: change more than one general register, or the stack by more than one entry on top (R118, derived there;
R31, R32). -/
def Obligations.StepChangesLittle : Prop :=
  ∀ s t : State, step s = .next t →
    (∃ x, ∀ y, y ≠ x → t.readV y = s.readV y) ∧
    (t.stack = s.stack ∨ t.stack = (s.pc + 2) :: s.stack ∨ ∃ a, s.stack = a :: t.stack)

/-- The invariant is kept by every step: canonical memory, at most 16 return addresses, PC at most 0x1002 and return addresses at most
0x1000 (R27, R30, R31; the bounds rest on the spec's decisions D4, D27, D33; the canonical form is the model's, log entry 2). -/
def Obligations.StepKeepsInvariant : Prop :=
  ∀ s t : State, s.Inv → step s = .next t → t.Inv

/-- The invariant holds of every state any number of steps reaches from a state that meets it (the same rules and decisions). -/
def Obligations.RunKeepsInvariant : Prop :=
  ∀ (k : Nat) (s t : State), s.Inv → Sys2Proof.core.run k s = .next t → t.Inv

/-- PC stays even over every step whose instruction is no JP or CALL with an odd address, and a JP or CALL with an odd address that
completes makes it odd (R28, the spec's decision D9: nothing checks it). -/
def Obligations.EvenPCUnlessOddTarget : Prop :=
  (∀ s t : State, s.Even → step s = .next t → Instr.evenTarget (decode s.wordAtPC) → t.Even) ∧
  (∀ (nnn : Addr) (s t : State), nnn.toNat % 2 = 1 →
    (exec (.jp nnn) s = .next t → t.pc.toNat % 2 = 1) ∧
    (exec (.call nnn) s = .next t → s.stack.length < 16 → t.pc.toNat % 2 = 1))

/-! ## Reset (70_reset_and_hazards.md) -/

/-- The state after reset: registers and I 0, PC 0x200, Running (R45, R241); stack empty and every pixel 0 by the spec's decision D20;
every byte MEM_INIT, here the default 0x00 (D21, log entry 2); no stop sample, no draw counted (log entries 3 and 4). -/
def Obligations.ResetValues : Prop :=
  (∀ x, State.reset.readV x = 0) ∧ State.reset.i = 0 ∧ State.reset.pc = 0x0200 ∧ State.reset.stack = [] ∧
  (∀ y x, State.reset.fb.pixel y x = false) ∧ (∀ a, State.reset.mem.byteAt a = 0x00) ∧ State.reset.run = .running ∧
  State.reset.stopSample = false ∧ State.reset.drawDone = 0

/-- The reset state meets the invariant and is even (R45; entries as for the invariant). -/
def Obligations.ResetMeetsInvariant : Prop := State.reset.Inv ∧ State.reset.Even

/-- R242: an image of even length of at most 3584 bytes loads: its bytes stand in order from 0x200, no other cell is written by the
load, and the engine runs from 0x200; an empty image loads. -/
def Obligations.ResetLoadsImage : Prop :=
  ∀ (init : Nat → Byte) (image : List Byte) (stop : List Bool), image.length % 2 = 0 → image.length ≤ 3584 →
    ∃ t, State.resetWith init image stop = .next t ∧
      (∀ k, k < image.length → t.mem.byteAt (0x200 + k) = image.getD k 0) ∧
      (∀ a, a ≤ 0xFFF → a < 0x200 ∨ 0x200 + image.length ≤ a → t.mem.byteAt a = init a) ∧
      t.run = .running ∧ t.pc = 0x0200

/-- A reset at any time, of a running or a halted machine, with an image that loads: every piece of state but the memory is at its
reset value, whatever it was before (R240, R241, R247; the reset values of the stack and the frame buffer are the spec's decision D20,
the reset during a run D24; the host's stop samples stay the host's, log entry 3). -/
def Obligations.ResetDiscardsAllState : Prop :=
  ∀ (init : Nat → Byte) (image : List Byte) (s : State), image.length % 2 = 0 → image.length ≤ 3584 →
    ∃ t, State.hostReset init image s = .next t ∧ t = { State.reset with mem := t.mem, stop := s.stop } ∧
      (∀ x, t.readV x = 0) ∧ t.i = 0 ∧ t.pc = 0x0200 ∧ t.stack = [] ∧ (∀ y x, t.fb.pixel y x = false) ∧ t.run = .running ∧
      ∀ s' : State, s'.stop = s.stop → State.hostReset init image s' = .next t

/-- An image of more than 3584 bytes, odd or even, ends in Halted(ImageTooLarge) with none of it in memory and every other piece of
state at its reset value; a shorter image of odd length is refused (R244, R245, the spec's decision D22; log entry 6). -/
def Obligations.ResetRejectsBadImages : Prop :=
  ∀ (init : Nat → Byte) (image : List Byte) (stop : List Bool),
    (3584 < image.length →
      ∃ t, State.resetWith init image stop = .next t ∧ (∀ a, a ≤ 0xFFF → t.mem.byteAt a = init a) ∧
        t = { State.reset with mem := t.mem, stop := stop, run := .halted .imageTooLarge }) ∧
    (image.length ≤ 3584 → image.length % 2 = 1 → State.resetWith init image stop = .refused .imageOddLength)

/-- Every reset, with any image and any memory content, gives a state that meets the invariant; and the plain reset state is the reset
with the empty image and MEM_INIT 0x00 (R240, R247; log entry 2). -/
def Obligations.EveryResetMeetsInvariant : Prop :=
  (∀ (init : Nat → Byte) (image : List Byte) (s t : State), State.hostReset init image s = .next t → t.Inv) ∧
  State.resetWith (fun _ => 0x00) [] [] = .next State.reset
end

