-- ==== Sys2Proof/Laws/State.lean ====
section
/-!
SUPPORT. One lemma per field of State per named update, each true by rfl, so that no proof unfolds a record update.
-/
namespace Sys2Proof.Machine

@[simp] theorem State.writeV_v (s : State) (x : VReg) (n : Nat) : (s.writeV x n).v = s.v.set x (BitVec.ofNat 8 n) := rfl
@[simp] theorem State.writeV_i (s : State) (x : VReg) (n : Nat) : (s.writeV x n).i = s.i := rfl
@[simp] theorem State.writeV_pc (s : State) (x : VReg) (n : Nat) : (s.writeV x n).pc = s.pc := rfl
@[simp] theorem State.writeV_stack (s : State) (x : VReg) (n : Nat) : (s.writeV x n).stack = s.stack := rfl
@[simp] theorem State.writeV_fb (s : State) (x : VReg) (n : Nat) : (s.writeV x n).fb = s.fb := rfl
@[simp] theorem State.writeV_mem (s : State) (x : VReg) (n : Nat) : (s.writeV x n).mem = s.mem := rfl
@[simp] theorem State.writeV_run (s : State) (x : VReg) (n : Nat) : (s.writeV x n).run = s.run := rfl
@[simp] theorem State.writeV_stop (s : State) (x : VReg) (n : Nat) : (s.writeV x n).stop = s.stop := rfl
@[simp] theorem State.writeV_drawDone (s : State) (x : VReg) (n : Nat) : (s.writeV x n).drawDone = s.drawDone := rfl

@[simp] theorem State.writeI_v (s : State) (n : Nat) : (s.writeI n).v = s.v := rfl
@[simp] theorem State.writeI_i (s : State) (n : Nat) : (s.writeI n).i = BitVec.ofNat 12 n := rfl
@[simp] theorem State.writeI_pc (s : State) (n : Nat) : (s.writeI n).pc = s.pc := rfl
@[simp] theorem State.writeI_stack (s : State) (n : Nat) : (s.writeI n).stack = s.stack := rfl
@[simp] theorem State.writeI_fb (s : State) (n : Nat) : (s.writeI n).fb = s.fb := rfl
@[simp] theorem State.writeI_mem (s : State) (n : Nat) : (s.writeI n).mem = s.mem := rfl
@[simp] theorem State.writeI_run (s : State) (n : Nat) : (s.writeI n).run = s.run := rfl
@[simp] theorem State.writeI_stop (s : State) (n : Nat) : (s.writeI n).stop = s.stop := rfl
@[simp] theorem State.writeI_drawDone (s : State) (n : Nat) : (s.writeI n).drawDone = s.drawDone := rfl

@[simp] theorem State.writePC_v (s : State) (n : Nat) : (s.writePC n).v = s.v := rfl
@[simp] theorem State.writePC_i (s : State) (n : Nat) : (s.writePC n).i = s.i := rfl
@[simp] theorem State.writePC_pc (s : State) (n : Nat) : (s.writePC n).pc = BitVec.ofNat 16 n := rfl
@[simp] theorem State.writePC_stack (s : State) (n : Nat) : (s.writePC n).stack = s.stack := rfl
@[simp] theorem State.writePC_fb (s : State) (n : Nat) : (s.writePC n).fb = s.fb := rfl
@[simp] theorem State.writePC_mem (s : State) (n : Nat) : (s.writePC n).mem = s.mem := rfl
@[simp] theorem State.writePC_run (s : State) (n : Nat) : (s.writePC n).run = s.run := rfl
@[simp] theorem State.writePC_stop (s : State) (n : Nat) : (s.writePC n).stop = s.stop := rfl
@[simp] theorem State.writePC_drawDone (s : State) (n : Nat) : (s.writePC n).drawDone = s.drawDone := rfl

@[simp] theorem State.advance_v (s : State) : s.advance.v = s.v := rfl
@[simp] theorem State.advance_i (s : State) : s.advance.i = s.i := rfl
@[simp] theorem State.advance_pc (s : State) : s.advance.pc = BitVec.ofNat 16 (s.pc.toNat + 2) := rfl
@[simp] theorem State.advance_stack (s : State) : s.advance.stack = s.stack := rfl
@[simp] theorem State.advance_fb (s : State) : s.advance.fb = s.fb := rfl
@[simp] theorem State.advance_mem (s : State) : s.advance.mem = s.mem := rfl
@[simp] theorem State.advance_run (s : State) : s.advance.run = s.run := rfl
@[simp] theorem State.advance_stop (s : State) : s.advance.stop = s.stop := rfl
@[simp] theorem State.advance_drawDone (s : State) : s.advance.drawDone = s.drawDone := rfl

@[simp] theorem State.skip_v (s : State) : s.skip.v = s.v := rfl
@[simp] theorem State.skip_i (s : State) : s.skip.i = s.i := rfl
@[simp] theorem State.skip_pc (s : State) : s.skip.pc = BitVec.ofNat 16 (s.pc.toNat + 4) := rfl
@[simp] theorem State.skip_stack (s : State) : s.skip.stack = s.stack := rfl
@[simp] theorem State.skip_fb (s : State) : s.skip.fb = s.fb := rfl
@[simp] theorem State.skip_mem (s : State) : s.skip.mem = s.mem := rfl
@[simp] theorem State.skip_run (s : State) : s.skip.run = s.run := rfl
@[simp] theorem State.skip_stop (s : State) : s.skip.stop = s.stop := rfl
@[simp] theorem State.skip_drawDone (s : State) : s.skip.drawDone = s.drawDone := rfl

@[simp] theorem State.halt_v (s : State) (r : HaltReason) : (s.halt r).v = s.v := rfl
@[simp] theorem State.halt_i (s : State) (r : HaltReason) : (s.halt r).i = s.i := rfl
@[simp] theorem State.halt_pc (s : State) (r : HaltReason) : (s.halt r).pc = s.pc := rfl
@[simp] theorem State.halt_stack (s : State) (r : HaltReason) : (s.halt r).stack = s.stack := rfl
@[simp] theorem State.halt_fb (s : State) (r : HaltReason) : (s.halt r).fb = s.fb := rfl
@[simp] theorem State.halt_mem (s : State) (r : HaltReason) : (s.halt r).mem = s.mem := rfl
@[simp] theorem State.halt_run (s : State) (r : HaltReason) : (s.halt r).run = .halted r := rfl
@[simp] theorem State.halt_stop (s : State) (r : HaltReason) : (s.halt r).stop = s.stop := rfl
@[simp] theorem State.halt_drawDone (s : State) (r : HaltReason) : (s.halt r).drawDone = s.drawDone := rfl

@[simp] theorem State.takeSample_v (s : State) : s.takeSample.v = s.v := rfl
@[simp] theorem State.takeSample_i (s : State) : s.takeSample.i = s.i := rfl
@[simp] theorem State.takeSample_pc (s : State) : s.takeSample.pc = s.pc := rfl
@[simp] theorem State.takeSample_stack (s : State) : s.takeSample.stack = s.stack := rfl
@[simp] theorem State.takeSample_fb (s : State) : s.takeSample.fb = s.fb := rfl
@[simp] theorem State.takeSample_mem (s : State) : s.takeSample.mem = s.mem := rfl
@[simp] theorem State.takeSample_run (s : State) : s.takeSample.run = s.run := rfl
@[simp] theorem State.takeSample_stop (s : State) : s.takeSample.stop = s.stop.tail := rfl
@[simp] theorem State.takeSample_drawDone (s : State) : s.takeSample.drawDone = s.drawDone := rfl

@[simp] theorem State.signalDrawDone_v (s : State) : s.signalDrawDone.v = s.v := rfl
@[simp] theorem State.signalDrawDone_i (s : State) : s.signalDrawDone.i = s.i := rfl
@[simp] theorem State.signalDrawDone_pc (s : State) : s.signalDrawDone.pc = s.pc := rfl
@[simp] theorem State.signalDrawDone_stack (s : State) : s.signalDrawDone.stack = s.stack := rfl
@[simp] theorem State.signalDrawDone_fb (s : State) : s.signalDrawDone.fb = s.fb := rfl
@[simp] theorem State.signalDrawDone_mem (s : State) : s.signalDrawDone.mem = s.mem := rfl
@[simp] theorem State.signalDrawDone_run (s : State) : s.signalDrawDone.run = s.run := rfl
@[simp] theorem State.signalDrawDone_stop (s : State) : s.signalDrawDone.stop = s.stop := rfl
@[simp] theorem State.signalDrawDone_drawDone (s : State) : s.signalDrawDone.drawDone = s.drawDone + 1 := rfl

@[simp] theorem State.writeCollision_v (s : State) (hit : Bool) : (s.writeCollision hit).v = s.v.set vf (BitVec.ofNat 8 (if hit then 1 else 0)) := rfl
@[simp] theorem State.writeCollision_i (s : State) (hit : Bool) : (s.writeCollision hit).i = s.i := rfl
@[simp] theorem State.writeCollision_pc (s : State) (hit : Bool) : (s.writeCollision hit).pc = s.pc := rfl
@[simp] theorem State.writeCollision_stack (s : State) (hit : Bool) : (s.writeCollision hit).stack = s.stack := rfl
@[simp] theorem State.writeCollision_fb (s : State) (hit : Bool) : (s.writeCollision hit).fb = s.fb := rfl
@[simp] theorem State.writeCollision_mem (s : State) (hit : Bool) : (s.writeCollision hit).mem = s.mem := rfl
@[simp] theorem State.writeCollision_run (s : State) (hit : Bool) : (s.writeCollision hit).run = s.run := rfl
@[simp] theorem State.writeCollision_stop (s : State) (hit : Bool) : (s.writeCollision hit).stop = s.stop := rfl
@[simp] theorem State.writeCollision_drawDone (s : State) (hit : Bool) : (s.writeCollision hit).drawDone = s.drawDone := rfl

@[simp] theorem State.reset_v : State.reset.v = Vector.replicate 16 0 := rfl
@[simp] theorem State.reset_i : State.reset.i = 0 := rfl
@[simp] theorem State.reset_pc : State.reset.pc = 0x0200 := rfl
@[simp] theorem State.reset_stack : State.reset.stack = [] := rfl
@[simp] theorem State.reset_fb : State.reset.fb = FrameBuffer.blank := rfl
@[simp] theorem State.reset_mem : State.reset.mem = [] := rfl
@[simp] theorem State.reset_run : State.reset.run = .running := rfl
@[simp] theorem State.reset_stop : State.reset.stop = [] := rfl
@[simp] theorem State.reset_drawDone : State.reset.drawDone = 0 := rfl

end Sys2Proof.Machine
end

