-- ==== Sys2Proof/Laws/Memory.lean ====
section
/-!
SUPPORT. The laws of memory: a read after a write, that every operation keeps the canonical form, bounds, big-endian bytes.
-/
namespace Sys2Proof.Machine

theorem inBounds_iff (addr n : Nat) : inBounds addr n = true ↔ n = 0 ∨ addr + n - 1 < 4096 := by
  rw [inBounds, Bool.or_eq_true, decide_eq_true_iff, beq_iff_eq, Config.chip8_memSize]

/-! ## Canonical form -/

theorem Memory.wf_nil : Memory.wf [] := by simp [Memory.wf]

theorem Memory.wf_cons (k : Nat) (b : Byte) (m : Memory) :
    Memory.wf ((k, b) :: m) ↔
      (∀ c ∈ m, k < c.1) ∧ (k < 4096 ∧ b ≠ Memory.unlisted) ∧ Memory.wf m := by
  simp only [Memory.wf, List.pairwise_cons, List.forall_mem_cons, Config.chip8_memSize]
  tauto

/-- An address below every listed one reads as unlisted. -/
theorem Memory.byteAt_of_lt {m : Memory} {a : Nat} (h : ∀ c ∈ m, a < c.1) : m.byteAt a = Memory.unlisted := by
  induction m with
  | nil => rfl
  | cons c m ih =>
    obtain ⟨k, b⟩ := c
    have hk : a < k := h (k, b) (by simp)
    rw [Memory.byteAt, if_neg (by omega)]
    exact ih fun c hc => h c (by simp [hc])

/-- Every key of a write is the address written or a key that was there. -/
theorem Memory.mem_setByte {m : Memory} {a : Nat} {b : Byte} {c : Host.Cell} (h : c ∈ m.setByte a b) :
    c = (a, b) ∨ c ∈ m := by
  induction m with
  | nil => simp only [Memory.setByte] at h; split at h <;> simp_all
  | cons d m ih =>
    obtain ⟨k, e⟩ := d
    simp only [Memory.setByte] at h
    split at h
    · split at h <;> simp_all
    · split at h
      · rename_i hak
        subst hak
        split at h
        · exact .inr (List.mem_cons_of_mem _ h)
        · rcases List.mem_cons.mp h with h | h
          · exact .inl h
          · exact .inr (List.mem_cons_of_mem _ h)
      · simp only [List.mem_cons] at h ⊢
        rcases h with h | h
        · exact .inr (.inl h)
        · rcases ih h with h | h <;> simp [h]

/-- A write in the address space keeps the canonical form. -/
theorem Memory.wf_setByte {m : Memory} {a : Nat} (b : Byte) (hm : m.wf) (ha : a < 4096) : (m.setByte a b).wf := by
  induction m with
  | nil =>
    simp only [Memory.setByte]
    split
    · exact Memory.wf_nil
    · exact (Memory.wf_cons a b []).mpr ⟨by simp, ⟨ha, ‹_›⟩, Memory.wf_nil⟩
  | cons d m ih =>
    obtain ⟨k, e⟩ := d
    have hd := (Memory.wf_cons k e m).mp hm
    obtain ⟨hk, he, hm'⟩ := hd
    simp only [Memory.setByte]
    split
    · split
      · exact hm
      · refine (Memory.wf_cons a b _).mpr ⟨?_, ⟨ha, ‹_›⟩, hm⟩
        intro c hc
        rcases List.mem_cons.mp hc with rfl | hc
        · assumption
        · have := hk c hc; omega
    · split
      · rename_i _ hak
        split
        · exact hm'
        · exact (Memory.wf_cons a b m).mpr ⟨by rw [hak]; exact hk, ⟨ha, ‹_›⟩, hm'⟩
      · refine (Memory.wf_cons k e _).mpr ⟨?_, he, ih hm'⟩
        intro c hc
        rcases Memory.mem_setByte hc with rfl | hc
        · simp only; omega
        · exact hk c hc

/-- A read after a write. -/
theorem Memory.byteAt_setByte {m : Memory} (hm : m.wf) (a : Nat) (b : Byte) (a' : Nat) :
    (m.setByte a b).byteAt a' = if a' = a then b else m.byteAt a' := by
  induction m with
  | nil =>
    simp only [Memory.setByte]
    split <;> split <;> simp_all [Memory.byteAt, eq_comm]
  | cons d m ih =>
    obtain ⟨k, e⟩ := d
    obtain ⟨hk, he, hm'⟩ := (Memory.wf_cons k e m).mp hm
    simp only [Memory.setByte]
    split
    · rename_i hak
      split
      · rename_i hb
        split
        · rename_i h
          rw [h, hb]
          exact Memory.byteAt_of_lt (by
            intro c hc
            rcases List.mem_cons.mp hc with rfl | hc
            · exact hak
            · have := hk c hc; omega)
        · rfl
      · rw [Memory.byteAt]; exact if_congr eq_comm rfl rfl
    · split
      · rename_i _ hak
        subst hak
        split
        · rename_i hb
          split
          · rename_i h
            rw [h, hb]
            exact Memory.byteAt_of_lt hk
          · rename_i h
            rw [Memory.byteAt, if_neg (by omega)]
        · rw [Memory.byteAt, Memory.byteAt]
          by_cases h : a' = a
          · rw [if_pos h.symm, if_pos h]
          · rw [if_neg (Ne.symm h), if_neg h, if_neg (Ne.symm h)]
      · rename_i h1 h2
        rw [Memory.byteAt, Memory.byteAt, ih hm']
        by_cases h : k = a'
        · rw [if_pos h, if_neg (by omega), if_pos h]
        · rw [if_neg h, if_neg h]

/-- Writing a run of bytes in the address space keeps the canonical form. -/
theorem Memory.wf_setBytes {m : Memory} (hm : m.wf) (bytes : List Byte) (addr : Nat) (h : addr + bytes.length ≤ 4096) :
    (m.setBytes addr bytes).wf := by
  induction bytes generalizing m addr with
  | nil => exact hm
  | cons b rest ih =>
    simp only [List.length_cons] at h
    exact ih (Memory.wf_setByte b hm (by omega)) (addr + 1) (by omega)

/-- A read after a run of bytes has been written. -/
theorem Memory.byteAt_setBytes {m : Memory} (hm : m.wf) (bytes : List Byte) (addr : Nat)
    (h : addr + bytes.length ≤ 4096) (a : Nat) :
    (m.setBytes addr bytes).byteAt a =
      if addr ≤ a ∧ a < addr + bytes.length then bytes.getD (a - addr) 0 else m.byteAt a := by
  induction bytes generalizing m addr with
  | nil => simp only [Memory.setBytes, List.length_nil]; rw [if_neg (by omega)]
  | cons b rest ih =>
    simp only [List.length_cons] at h
    rw [Memory.setBytes, ih (Memory.wf_setByte b hm (by omega)) (addr + 1) (by omega), Memory.byteAt_setByte hm]
    simp only [List.length_cons]
    by_cases h1 : a = addr
    · subst h1
      rw [if_neg (by omega), if_pos rfl, if_pos (by omega)]
      simp
    · by_cases h2 : addr + 1 ≤ a ∧ a < addr + 1 + rest.length
      · obtain ⟨k, rfl⟩ : ∃ k, a = addr + 1 + k := ⟨a - (addr + 1), by omega⟩
        rw [if_pos h2, if_pos (by omega), show addr + 1 + k - (addr + 1) = k by omega,
          show addr + 1 + k - addr = k + 1 by omega]
        simp
      · rw [if_neg h2, if_neg h1, if_neg (by omega)]

/-- MemWrite keeps the canonical form. -/
theorem bigEndianBytes_length (n v : Nat) : (bigEndianBytes n v).length = n := by
  induction n with
  | zero => rfl
  | succ n ih => simp [bigEndianBytes, ih]

theorem Memory.wf_memWrite {m m' : Memory} {addr n v : Nat} (hm : m.wf) (h : m.memWrite addr n v = .ok m') : m'.wf := by
  simp only [Memory.memWrite] at h
  split at h
  · rename_i hb
    simp only [Except.ok.injEq] at h
    subst h
    rcases (inBounds_iff addr n).mp hb with rfl | hb
    · exact hm
    · by_cases hn : n = 0
      · subst hn; exact hm
      · exact Memory.wf_setBytes hm _ addr (by rw [bigEndianBytes_length]; omega)
  · cases h

/-! ## A filled memory -/

theorem Memory.wf_filterMap_range (init : Nat → Byte) (n : Nat) (hn : n ≤ 4096) :
    Memory.wf ((List.range n).filterMap fun a => if init a = Memory.unlisted then none else some (a, init a)) := by
  constructor
  · refine List.Pairwise.filterMap (R := (· < ·)) _ ?_ List.pairwise_lt_range
    intro a a' hlt c hc c' hc'
    simp only [Option.ite_none_left_eq_some, Option.some.injEq] at hc hc'
    rw [← hc.2, ← hc'.2]; exact hlt
  · intro c hc
    obtain ⟨a, ha, hc⟩ := List.mem_filterMap.mp hc
    simp only [Option.ite_none_left_eq_some, Option.some.injEq] at hc
    rw [← hc.2]
    exact ⟨by have := List.mem_range.mp ha; simp only [Config.chip8_memSize]; omega, hc.1⟩

theorem Memory.filled_eq (init : Nat → Byte) : Memory.filled init =
    (List.range 4096).filterMap fun a => if init a = Memory.unlisted then none else some (a, init a) := by
  unfold Memory.filled
  rw [Config.chip8_memSize]

theorem Memory.wf_filled (init : Nat → Byte) : (Memory.filled init).wf := by
  rw [Memory.filled_eq]
  exact Memory.wf_filterMap_range init 4096 (le_refl _)

/-- In a canonical memory the listed entry of an address is what it reads as. -/
theorem Memory.byteAt_of_mem {m : Memory} (hm : m.wf) {a : Nat} {b : Byte} (h : (a, b) ∈ m) : m.byteAt a = b := by
  induction m with
  | nil => simp at h
  | cons d m ih =>
    obtain ⟨k, e⟩ := d
    obtain ⟨hk, -, hm'⟩ := (Memory.wf_cons k e m).mp hm
    rcases List.mem_cons.mp h with h | h
    · cases h; rw [Memory.byteAt, if_pos rfl]
    · have := hk _ h
      rw [Memory.byteAt, if_neg (by simp only at this; omega), ih hm' h]

/-- An address no entry lists reads as unlisted. -/
theorem Memory.byteAt_of_not_mem {m : Memory} {a : Nat} (h : ∀ b, (a, b) ∉ m) : m.byteAt a = Memory.unlisted := by
  induction m with
  | nil => rfl
  | cons d m ih =>
    obtain ⟨k, e⟩ := d
    rw [Memory.byteAt, if_neg]
    · exact ih fun b hb => h b (List.mem_cons_of_mem _ hb)
    · rintro rfl; exact h e (by simp)

/-- A listed address lies in the address space, so every other address reads as unlisted. -/
theorem Memory.byteAt_of_ge {m : Memory} (hm : m.wf) {a : Nat} (h : 4096 ≤ a) : m.byteAt a = Memory.unlisted :=
  Memory.byteAt_of_not_mem fun b hb => by
    have := (hm.2 _ hb).1
    simp only [Config.chip8_memSize] at this; omega

/-- What a filled memory reads as. -/
theorem Memory.byteAt_filled (init : Nat → Byte) {a : Nat} (ha : a < 4096) : (Memory.filled init).byteAt a = init a := by
  have w := Memory.wf_filled init
  rw [Memory.filled_eq] at w ⊢
  by_cases h : init a = Memory.unlisted
  · rw [h]
    refine Memory.byteAt_of_not_mem fun b hb => ?_
    obtain ⟨a', -, hc⟩ := List.mem_filterMap.mp hb
    simp only [Option.ite_none_left_eq_some, Option.some.injEq, Prod.mk.injEq] at hc
    rw [hc.2.1] at hc; exact hc.1 h
  · refine Memory.byteAt_of_mem w (List.mem_filterMap.mpr ⟨a, ?_, ?_⟩)
    · simpa using ha
    · rw [if_neg h]

/-- The memory of an image load is canonical, for an image that fits. -/
theorem wf_loadedMemory (init : Nat → Byte) (image : List Byte) (h : image.length ≤ 3584) :
    (loadedMemory init image).wf :=
  Memory.wf_setBytes (Memory.wf_filled init) image 0x200 (by omega)

/-- What the memory of an image load reads as. -/
theorem byteAt_loadedMemory (init : Nat → Byte) (image : List Byte) (h : image.length ≤ 3584) {a : Nat} (ha : a < 4096) :
    (loadedMemory init image).byteAt a =
      if 0x200 ≤ a ∧ a < 0x200 + image.length then image.getD (a - 0x200) 0 else init a := by
  rw [← Memory.byteAt_filled init ha]
  exact Memory.byteAt_setBytes (Memory.wf_filled init) image 0x200 (by omega) a

/-- Everything a reset with an image can do: reject it by its length, refuse it by its parity, or load it. -/
theorem State.resetWith_eq (init : Nat → Byte) (image : List Byte) (stop : List Bool) :
    (3584 < image.length → State.resetWith init image stop =
      .next { State.reset with mem := Memory.filled init, run := .halted .imageTooLarge, stop := stop }) ∧
    (¬ 3584 < image.length → image.length % 2 = 1 → State.resetWith init image stop = .refused .imageOddLength) ∧
    (¬ 3584 < image.length → image.length % 2 = 0 → State.resetWith init image stop =
      .next { State.reset with mem := loadedMemory init image, stop := stop }) := by
  unfold State.resetWith
  rw [Config.chip8_maxImageBytes]
  refine ⟨fun h => if_pos h, fun h p => ?_, fun h p => ?_⟩
  · rw [if_neg h, if_pos p]
  · rw [if_neg h, if_neg (by omega)]

/-! ## Reads -/

theorem Memory.bytesFrom_length (m : Memory) (addr n : Nat) : (m.bytesFrom addr n).length = n := by
  simp [Memory.bytesFrom]

theorem Memory.bytesFrom_getElem (m : Memory) (addr n k : Nat) (h : k < (m.bytesFrom addr n).length) :
    (m.bytesFrom addr n)[k] = m.byteAt (addr + k) := by
  simp [Memory.bytesFrom]

theorem Memory.readBytes_ok (m : Memory) {addr n : Nat} (h : inBounds addr n = true) :
    m.readBytes addr n = .ok (m.bytesFrom addr n) := if_pos h

theorem Memory.readBytes_error (m : Memory) {addr n : Nat} (h : inBounds addr n = false) :
    m.readBytes addr n = .error .addressingFault := if_neg (by simp [h])

theorem bigEndian_foldl (bytes : List Byte) (v : Nat) :
    bytes.foldl (fun v b => v * 256 + b.toNat) v = v * 256 ^ bytes.length + bigEndian bytes := by
  induction bytes generalizing v with
  | nil => simp [bigEndian]
  | cons b rest ih =>
    have h : bigEndian (b :: rest) = (0 * 256 + b.toNat) * 256 ^ rest.length + bigEndian rest := ih _
    rw [List.foldl_cons, ih, List.length_cons, h]
    ring

theorem bigEndian_cons (b : Byte) (rest : List Byte) :
    bigEndian (b :: rest) = b.toNat * 256 ^ rest.length + bigEndian rest := by
  rw [bigEndian, List.foldl_cons, bigEndian_foldl]; simp

theorem bigEndian_lt (bytes : List Byte) : bigEndian bytes < 256 ^ bytes.length := by
  induction bytes with
  | nil => simp [bigEndian]
  | cons b rest ih =>
    have hb := b.isLt
    rw [bigEndian_cons, List.length_cons, pow_succ]
    nlinarith [Nat.pow_pos (n := rest.length) (show 0 < 256 by omega)]

/-- The base-256 digits of assembled bytes are the bytes, the first of them the highest. -/
theorem bigEndian_digit (bytes : List Byte) (k : Nat) (hk : k < bytes.length) :
    bigEndian bytes / 256 ^ (bytes.length - 1 - k) % 256 = bytes[k].toNat := by
  induction bytes generalizing k with
  | nil => simp at hk
  | cons b rest ih =>
    rw [bigEndian_cons, List.length_cons]
    have hlt := bigEndian_lt rest
    cases k with
    | zero =>
      have hb := b.isLt
      have hp : 0 < 256 ^ rest.length := Nat.pow_pos (by omega)
      rw [show rest.length + 1 - 1 - 0 = rest.length by omega, Nat.mul_comm, Nat.mul_add_div hp, Nat.div_eq_of_lt hlt]
      simp only [List.getElem_cons_zero]; omega
    | succ k =>
      simp only [List.length_cons, Nat.add_lt_add_iff_right] at hk
      rw [show rest.length + 1 - 1 - (k + 1) = rest.length - 1 - k by omega, List.getElem_cons_succ, ← ih k hk]
      have hp : 0 < 256 ^ (rest.length - 1 - k) := Nat.pow_pos (by omega)
      have e : b.toNat * 256 ^ rest.length = 256 ^ (rest.length - 1 - k) * (256 * (b.toNat * 256 ^ k)) := by
        rw [show rest.length = (rest.length - 1 - k) + (k + 1) by omega, pow_add, pow_succ]
        simp only [show (rest.length - 1 - k) + (k + 1) - 1 - k = rest.length - 1 - k by omega]; ring
      rw [e, Nat.mul_add_div hp, Nat.mul_add_mod]

/-- The bytes of a value are its base-256 digits, the highest first. -/
theorem bigEndianBytes_digit (n v k : Nat) (hk : k < n) :
    ((bigEndianBytes n v).getD k 0).toNat = v / 256 ^ (n - 1 - k) % 256 := by
  induction n generalizing k with
  | zero => omega
  | succ n ih =>
    cases k with
    | zero => simp [bigEndianBytes]
    | succ k => simpa [bigEndianBytes, show n - 1 - k = n - (k + 1) by omega] using ih k (by omega)

/-- Two bytes, the one at the lower address in the high bits (R55). -/
theorem bigEndian_pair (hi lo : Byte) : BitVec.ofNat 16 (bigEndian [hi, lo]) = hi ++ lo := by
  apply BitVec.eq_of_toNat_eq
  have h1 := hi.isLt
  have h2 := lo.isLt
  simp only [bigEndian, List.foldl, BitVec.toNat_ofNat, BitVec.toNat_append]
  rw [show 0 * 256 + hi.toNat = hi.toNat by omega, Nat.mod_eq_of_lt (by omega),
    ← Nat.shiftLeft_add_eq_or_of_lt h2, Nat.shiftLeft_eq]

/-- The bytes of a word, high byte first. -/
theorem bigEndianBytes_append (hi lo : Byte) : bigEndianBytes 2 (hi ++ lo : Word).toNat = [hi, lo] := by
  have h1 := hi.isLt
  have h2 := lo.isLt
  have e : (hi ++ lo : Word).toNat = hi.toNat * 256 + lo.toNat := by
    rw [BitVec.toNat_append, ← Nat.shiftLeft_add_eq_or_of_lt h2, Nat.shiftLeft_eq]
  rw [e]
  simp only [bigEndianBytes, List.cons.injEq, and_true]
  constructor <;> apply BitVec.eq_of_toNat_eq <;> simp only [BitVec.toNat_ofNat] <;> omega

/-- The fetch of R112 in bounds. -/
theorem State.fetch_ok (s : State) (h : s.pc.toNat < 0x0FFF) :
    s.fetch = .ok (s.mem.byteAt s.pc.toNat ++ s.mem.byteAt (s.pc.toNat + 1) : Word) := by
  have hb : inBounds s.pc.toNat 2 = true := (inBounds_iff _ _).mpr (by omega)
  simp only [State.fetch, Memory.memRead, Config.chip8_instrBytes, Memory.readBytes_ok _ hb, Except.map]
  rw [← bigEndian_pair]; rfl

/-- The fetch of R112 out of bounds. -/
theorem State.fetch_error (s : State) (h : 0x0FFF ≤ s.pc.toNat) : s.fetch = .error .addressingFault := by
  have hb : inBounds s.pc.toNat 2 = false := by
    rw [Bool.eq_false_iff]; intro h'; have := (inBounds_iff _ _).mp h'; omega
  simp only [State.fetch, Memory.memRead, Config.chip8_instrBytes, Memory.readBytes_error _ hb, Except.map]

end Sys2Proof.Machine
end

