-- ==== Sys2Proof/Laws/Config.lean ====
section
/-!
SUPPORT. The configuration record against the types: the widths, counts and sizes of R6 are those the state and the operands have.
-/
namespace Sys2Proof.Machine

theorem byte_width : Byte = BitVec Config.chip8.vregWidth := rfl
theorem addr_width : Addr = BitVec Config.chip8.iWidth := rfl
theorem pc_width : Word = BitVec Config.chip8.pcWidth := rfl
theorem stack_entry_width : Word = BitVec Config.chip8.stackEntryWidth := rfl
theorem vreg_count : VReg = Fin Config.chip8.vregCount := rfl
theorem bank_size (s : State) : s.v.toList.length = Config.chip8.vregCount := by simp
theorem screen_size (s : State) :
    s.fb.toList.length = Config.chip8.screenH ∧ ∀ y : Fin 32, s.fb[y].toList.length = Config.chip8.screenW := by simp

/-- A sprite has at most MAX_SPRITE_ROWS rows. -/
theorem rowCount_le (n : Nibble) : rowCount n ≤ Config.chip8.maxSpriteRows := Nat.le_of_lt_succ n.isLt

/-- The largest image ends at the last cell (R243). -/
theorem progBase_add_maxImageBytes : Config.chip8.progBase + Config.chip8.maxImageBytes = Config.chip8.memSize := by simp

/-- The loader writes no cell of the reserved interpreter region (R51). -/
theorem byteAt_loadedMemory_reserved (init : Nat → Byte) (image : List Byte) (h : image.length ≤ 3584) {a : Nat}
    (ha : Config.chip8.reserved a) : (loadedMemory init image).byteAt a = init a := by
  have hi := ha.2
  rw [Config.chip8_reservedHi] at hi
  rw [byteAt_loadedMemory init image h (by omega), if_neg (by omega)]

end Sys2Proof.Machine
end

