-- ==== Sys2Proof/Laws/Decode.lean ====
section
/-!
SUPPORT. The decoder and the encoder in terms of the unsigned value of a word: what a row's mask tests, what a format's word is
worth, what a field reads, and what `decode` answers, case by case.
-/
namespace Sys2Proof

/-! ## Masks -/

theorem toNat_and_family (w : Word) : (w &&& 0xF000#16).toNat = w.toNat / 4096 * 4096 := by
  have h : w &&& 0xF000#16 = (w >>> 12) <<< 12 := by
    apply BitVec.eq_of_getLsbD_eq
    intro i hi
    interval_cases i <;> simp
  have := w.isLt
  rw [h, BitVec.toNat_shiftLeft, BitVec.toNat_ushiftRight, Nat.shiftRight_eq_div_pow, Nat.shiftLeft_eq]
  omega

theorem toNat_and_low (w m : Word) (n : Nat) (hm : m.toNat = 2 ^ n - 1) : (w &&& m).toNat = w.toNat % 2 ^ n := by
  rw [BitVec.toNat_and, hm, Nat.and_two_pow_sub_one_eq_mod]

/-- A mask of the family nibble and the low `n` bits. -/
theorem toNat_and_family_low (w lo : Word) (n : Nat) (hn : n ≤ 12) (hlo : lo.toNat = 2 ^ n - 1) :
    (w &&& (0xF000#16 ||| lo)).toNat = w.toNat / 4096 * 4096 + w.toNat % 2 ^ n := by
  have e : w &&& (0xF000#16 ||| lo) = w &&& 0xF000#16 ||| w &&& lo := by
    apply BitVec.eq_of_getLsbD_eq; intro i _; simp [Bool.and_or_distrib_left]
  have hw := w.isLt
  have h2 : 2 ^ n ≤ 4096 := Nat.pow_le_pow_right (n := 2) (by omega) hn
  have h3 : w.toNat % 2 ^ n < 2 ^ 12 := lt_of_lt_of_le (Nat.mod_lt _ (Nat.pow_pos (by omega))) h2
  rw [e, BitVec.toNat_or, toNat_and_family, toNat_and_low w lo n hlo,
    show w.toNat / 4096 * 4096 = (w.toNat / 4096) <<< 12 by rw [Nat.shiftLeft_eq],
    ← Nat.shiftLeft_add_eq_or_of_lt h3]

/-! ## What a row matches -/

theorem rowMatches_all (m : String) (v : Word) (f : Word → Instr) (w : Word) :
    rowMatches ⟨m, 0xFFFF, v, f⟩ w = decide (w.toNat = v.toNat) := by
  rw [Bool.eq_iff_iff, rowMatches, beq_iff_eq, decide_eq_true_iff, ← BitVec.toNat_inj,
    toNat_and_low w 0xFFFF 16 rfl, Nat.mod_eq_of_lt w.isLt]

theorem rowMatches_family (m : String) (v : Word) (f : Word → Instr) (w : Word) (hv : v.toNat % 4096 = 0) :
    rowMatches ⟨m, 0xF000, v, f⟩ w = decide (w.toNat / 4096 = v.toNat / 4096) := by
  rw [Bool.eq_iff_iff, rowMatches, beq_iff_eq, decide_eq_true_iff, ← BitVec.toNat_inj]
  have := toNat_and_family w
  simp only at this ⊢
  rw [show (0xF000 : Word) = 0xF000#16 from rfl, this]
  omega

theorem rowMatches_family_nibble (m : String) (v : Word) (f : Word → Instr) (w : Word) (hv : v.toNat % 4096 < 16) :
    rowMatches ⟨m, 0xF00F, v, f⟩ w = decide (w.toNat / 4096 = v.toNat / 4096 ∧ w.toNat % 16 = v.toNat % 16) := by
  rw [Bool.eq_iff_iff, rowMatches, beq_iff_eq, decide_eq_true_iff, ← BitVec.toNat_inj]
  have := toNat_and_family_low w 0x000F 4 (by omega) rfl
  simp only at this ⊢
  rw [show (0xF00F : Word) = 0xF000#16 ||| 0x000F from rfl, this]
  omega

theorem rowMatches_family_byte (m : String) (v : Word) (f : Word → Instr) (w : Word) (hv : v.toNat % 4096 < 256) :
    rowMatches ⟨m, 0xF0FF, v, f⟩ w = decide (w.toNat / 4096 = v.toNat / 4096 ∧ w.toNat % 256 = v.toNat % 256) := by
  rw [Bool.eq_iff_iff, rowMatches, beq_iff_eq, decide_eq_true_iff, ← BitVec.toNat_inj]
  have := toNat_and_family_low w 0x00FF 8 (by omega) rfl
  simp only at this ⊢
  rw [show (0xF0FF : Word) = 0xF000#16 ||| 0x00FF from rfl, this]
  omega

/-! ## Rows against each other (R90: pairwise disjoint) -/

/-- Two rows that match one word agree on the bits both of them test. -/
theorem rows_agree {r r' : OpcodeRow} {w : Word} (h : rowMatches r w = true) (h' : rowMatches r' w = true) :
    r.value &&& r'.mask = r'.value &&& r.mask := by
  rw [rowMatches, beq_iff_eq] at h h'
  rw [← h, ← h', BitVec.and_assoc, BitVec.and_assoc, BitVec.and_comm r.mask]

/-- Rows of the map with one mnemonic are one row. -/
theorem row_eq_of_mnemonic_eq {r r' : OpcodeRow} (h : r ∈ opcodeTable) (h' : r' ∈ opcodeTable)
    (he : r.mnemonic = r'.mnemonic) : r = r' :=
  List.inj_on_of_nodup_map (f := OpcodeRow.mnemonic) (by decide) h h' he

/-- Rows of the map that agree where both test are one row. -/
theorem mnemonic_eq_of_rows_agree :
    ∀ r ∈ opcodeTable, ∀ r' ∈ opcodeTable, r.value &&& r'.mask = r'.value &&& r.mask → r.mnemonic = r'.mnemonic := by
  decide

/-- What `decodeWith` finds: a row of the map that matches, or no row matches. -/
theorem decodeWith_cases (table : List OpcodeRow) (w : Word) :
    (∃ r ∈ table, rowMatches r w = true ∧ decodeWith table w = r.build w) ∨
    ((∀ r ∈ table, rowMatches r w = false) ∧ decodeWith table w = .unknown w) := by
  unfold decodeWith
  cases h : table.find? (rowMatches · w) with
  | some r => exact .inl ⟨r, List.mem_of_find?_eq_some h, List.find?_some (p := (rowMatches · w)) h, rfl⟩
  | none => exact .inr ⟨fun r hr => by simpa using List.find?_eq_none.mp h r hr, rfl⟩

/-! ## What a format's word is worth, and what a field reads -/

theorem toNat_append_eq {n m : Nat} (a : BitVec n) (b : BitVec m) : (a ++ b).toNat = a.toNat * 2 ^ m + b.toNat := by
  rw [BitVec.toNat_append, ← Nat.shiftLeft_add_eq_or_of_lt b.isLt, Nat.shiftLeft_eq]

theorem toNat_formatA (fam : Nibble) (nnn : Addr) : (formatA fam nnn).toNat = fam.toNat * 4096 + nnn.toNat :=
  toNat_append_eq fam nnn

theorem toNat_formatXI (fam : Nibble) (x : VReg) (nn : Byte) :
    (formatXI fam x nn).toNat = fam.toNat * 4096 + x.val * 256 + nn.toNat := by
  have h1 : (fam ++ (BitVec.ofFin x : Nibble)).toNat = fam.toNat * 2 ^ 4 + x.val := toNat_append_eq fam _
  have h2 : (formatXI fam x nn).toNat = (fam ++ (BitVec.ofFin x : Nibble)).toNat * 2 ^ 8 + nn.toNat :=
    toNat_append_eq _ nn
  rw [h2, h1]; ring

theorem toNat_formatXYN (fam : Nibble) (x y : VReg) (n : Nibble) :
    (formatXYN fam x y n).toNat = fam.toNat * 4096 + x.val * 256 + y.val * 16 + n.toNat := by
  have h1 : (fam ++ (BitVec.ofFin x : Nibble)).toNat = fam.toNat * 2 ^ 4 + x.val := toNat_append_eq fam _
  have h2 : (fam ++ (BitVec.ofFin x : Nibble) ++ (BitVec.ofFin y : Nibble)).toNat =
      (fam ++ (BitVec.ofFin x : Nibble)).toNat * 2 ^ 4 + y.val := toNat_append_eq _ _
  have h3 : (formatXYN fam x y n).toNat =
      (fam ++ (BitVec.ofFin x : Nibble) ++ (BitVec.ofFin y : Nibble)).toNat * 2 ^ 4 + n.toNat := toNat_append_eq _ n
  rw [h3, h2, h1]; ring

theorem val_fieldX (w : Word) : (fieldX w).val = w.toNat / 256 % 16 := by
  have : (fieldX w).val = (w.extractLsb' 8 4).toNat := rfl
  rw [this, BitVec.extractLsb'_toNat, Nat.shiftRight_eq_div_pow]

theorem val_fieldY (w : Word) : (fieldY w).val = w.toNat / 16 % 16 := by
  have : (fieldY w).val = (w.extractLsb' 4 4).toNat := rfl
  rw [this, BitVec.extractLsb'_toNat, Nat.shiftRight_eq_div_pow]

theorem toNat_fieldN (w : Word) : (fieldN w).toNat = w.toNat % 16 := by
  rw [fieldN, BitVec.extractLsb'_toNat, Nat.shiftRight_zero]

theorem toNat_fieldNN (w : Word) : (fieldNN w).toNat = w.toNat % 256 := by
  rw [fieldNN, BitVec.extractLsb'_toNat, Nat.shiftRight_zero]

theorem toNat_fieldNNN (w : Word) : (fieldNNN w).toNat = w.toNat % 4096 := by
  rw [fieldNNN, BitVec.extractLsb'_toNat, Nat.shiftRight_zero]

/-- The family table of R91 on the word's value. -/
theorem supportedWord_iff (w : Word) :
    supportedWord w = true ↔
      w.toNat = 0x00E0 ∨ w.toNat = 0x00EE ∨ w.toNat / 4096 = 0x1 ∨ w.toNat / 4096 = 0x2 ∨ w.toNat / 4096 = 0x3 ∨
      w.toNat / 4096 = 0x4 ∨ w.toNat / 4096 = 0x6 ∨ w.toNat / 4096 = 0x7 ∨
      (w.toNat / 4096 = 0x8 ∧ w.toNat % 16 = 0) ∨ w.toNat / 4096 = 0xA ∨ w.toNat / 4096 = 0xD ∨
      (w.toNat / 4096 = 0xF ∧ w.toNat % 256 = 0x1E) := by
  have hw := w.isLt
  have hf : (w.extractLsb' 12 4).toNat = w.toNat / 4096 := by
    rw [BitVec.extractLsb'_toNat, Nat.shiftRight_eq_div_pow]; omega
  have hn : (w.extractLsb' 0 4 == 0x0) = true ↔ w.toNat % 16 = 0 := by
    rw [beq_iff_eq, ← BitVec.toNat_inj, ← toNat_fieldN]; rfl
  have hb : (w.extractLsb' 0 8 == 0x1E) = true ↔ w.toNat % 256 = 0x1E := by
    rw [beq_iff_eq, ← BitVec.toNat_inj, ← toNat_fieldNN]; rfl
  have h0 : (w == 0x00E0 || w == 0x00EE) = true ↔ w.toNat = 0x00E0 ∨ w.toNat = 0x00EE := by
    rw [Bool.or_eq_true, beq_iff_eq, beq_iff_eq, ← BitVec.toNat_inj, ← BitVec.toNat_inj]; rfl
  have hlt : w.toNat / 4096 < 16 := by omega
  unfold supportedWord
  rw [hf]
  generalize hk : w.toNat / 4096 = k at *
  interval_cases k <;>
    first
      | exact h0.trans (by omega)
      | exact hn.trans (by omega)
      | exact hb.trans (by omega)
      | exact ⟨fun _ => by omega, fun _ => rfl⟩
      | exact ⟨fun h => Bool.noConfusion h, fun h => by omega⟩

/-- The inversion of the decoder: which row a word is of, on its value, and what it decodes to. -/
theorem decode_cases (w : Word) :
    (w.toNat = 0x00E0 ∧ decode w = .cls) ∨
    (w.toNat = 0x00EE ∧ decode w = .ret) ∨
    (w.toNat / 4096 = 0x1 ∧ decode w = .jp (fieldNNN w)) ∨
    (w.toNat / 4096 = 0x2 ∧ decode w = .call (fieldNNN w)) ∨
    (w.toNat / 4096 = 0x3 ∧ decode w = .se (fieldX w) (fieldNN w)) ∨
    (w.toNat / 4096 = 0x4 ∧ decode w = .sne (fieldX w) (fieldNN w)) ∨
    (w.toNat / 4096 = 0x6 ∧ decode w = .ldVxNN (fieldX w) (fieldNN w)) ∨
    (w.toNat / 4096 = 0x7 ∧ decode w = .addVxNN (fieldX w) (fieldNN w)) ∨
    (w.toNat / 4096 = 0x8 ∧ w.toNat % 16 = 0 ∧ decode w = .ldVxVy (fieldX w) (fieldY w)) ∨
    (w.toNat / 4096 = 0xA ∧ decode w = .ldINNN (fieldNNN w)) ∨
    (w.toNat / 4096 = 0xD ∧ decode w = .drw (fieldX w) (fieldY w) (fieldN w)) ∨
    (w.toNat / 4096 = 0xF ∧ w.toNat % 256 = 0x1E ∧ decode w = .addIVx (fieldX w)) ∨
    (supportedWord w = false ∧ decode w = .unknown w) := by
  rcases decodeWith_cases opcodeTable w with ⟨r, hr, hm, hd⟩ | ⟨hn, hd⟩
  · simp only [opcodeTable, List.mem_cons, List.not_mem_nil, or_false] at hr
    rcases hr with rfl | rfl | rfl | rfl | rfl | rfl | rfl | rfl | rfl | rfl | rfl | rfl
    · exact .inl ⟨of_decide_eq_true ((rowMatches_all _ _ _ _).symm.trans hm), hd⟩
    · exact .inr (.inl ⟨of_decide_eq_true ((rowMatches_all _ _ _ _).symm.trans hm), hd⟩)
    · exact .inr (.inr (.inl ⟨of_decide_eq_true ((rowMatches_family _ _ _ _ (by decide)).symm.trans hm), hd⟩))
    · exact .inr (.inr (.inr (.inl ⟨of_decide_eq_true ((rowMatches_family _ _ _ _ (by decide)).symm.trans hm), hd⟩)))
    · exact .inr (.inr (.inr (.inr (.inl ⟨of_decide_eq_true ((rowMatches_family _ _ _ _ (by decide)).symm.trans hm), hd⟩))))
    · exact .inr (.inr (.inr (.inr (.inr (.inl ⟨of_decide_eq_true ((rowMatches_family _ _ _ _ (by decide)).symm.trans hm), hd⟩)))))
    · exact .inr (.inr (.inr (.inr (.inr (.inr (.inl ⟨of_decide_eq_true ((rowMatches_family _ _ _ _ (by decide)).symm.trans hm), hd⟩))))))
    · exact .inr (.inr (.inr (.inr (.inr (.inr (.inr (.inl ⟨of_decide_eq_true ((rowMatches_family _ _ _ _ (by decide)).symm.trans hm), hd⟩)))))))
    · exact .inr (.inr (.inr (.inr (.inr (.inr (.inr (.inr (.inl ⟨(of_decide_eq_true ((rowMatches_family_nibble _ _ _ _ (by decide)).symm.trans hm)).1,
        (of_decide_eq_true ((rowMatches_family_nibble _ _ _ _ (by decide)).symm.trans hm)).2, hd⟩))))))))
    · exact .inr (.inr (.inr (.inr (.inr (.inr (.inr (.inr (.inr (.inl ⟨of_decide_eq_true ((rowMatches_family _ _ _ _ (by decide)).symm.trans hm), hd⟩)))))))))
    · exact .inr (.inr (.inr (.inr (.inr (.inr (.inr (.inr (.inr (.inr (.inl ⟨of_decide_eq_true ((rowMatches_family _ _ _ _ (by decide)).symm.trans hm), hd⟩))))))))))
    · exact .inr (.inr (.inr (.inr (.inr (.inr (.inr (.inr (.inr (.inr (.inr (.inl ⟨(of_decide_eq_true ((rowMatches_family_byte _ _ _ _ (by decide)).symm.trans hm)).1,
        (of_decide_eq_true ((rowMatches_family_byte _ _ _ _ (by decide)).symm.trans hm)).2, hd⟩)))))))))))
  · refine .inr (.inr (.inr (.inr (.inr (.inr (.inr (.inr (.inr (.inr (.inr (.inr (⟨?_, hd⟩))))))))))))
    rw [Bool.eq_false_iff, ne_eq, supportedWord_iff]
    simp only [opcodeTable, List.forall_mem_cons, List.not_mem_nil, false_implies, implies_true, and_true] at hn
    obtain ⟨h0, h1, h2, h3, h4, h5, h6, h7, h8, h9, h10, h11⟩ := hn
    rintro (h | h | h | h | h | h | h | h | h | h | h | h)
    · exact of_decide_eq_false ((rowMatches_all _ _ _ _).symm.trans h0) h
    · exact of_decide_eq_false ((rowMatches_all _ _ _ _).symm.trans h1) h
    · exact of_decide_eq_false ((rowMatches_family _ _ _ _ (by decide)).symm.trans h2) h
    · exact of_decide_eq_false ((rowMatches_family _ _ _ _ (by decide)).symm.trans h3) h
    · exact of_decide_eq_false ((rowMatches_family _ _ _ _ (by decide)).symm.trans h4) h
    · exact of_decide_eq_false ((rowMatches_family _ _ _ _ (by decide)).symm.trans h5) h
    · exact of_decide_eq_false ((rowMatches_family _ _ _ _ (by decide)).symm.trans h6) h
    · exact of_decide_eq_false ((rowMatches_family _ _ _ _ (by decide)).symm.trans h7) h
    · exact of_decide_eq_false ((rowMatches_family_nibble _ _ _ _ (by decide)).symm.trans h8) h
    · exact of_decide_eq_false ((rowMatches_family _ _ _ _ (by decide)).symm.trans h9) h
    · exact of_decide_eq_false ((rowMatches_family _ _ _ _ (by decide)).symm.trans h10) h
    · exact of_decide_eq_false ((rowMatches_family_byte _ _ _ _ (by decide)).symm.trans h11) h

end Sys2Proof
end

