-- ==== Sys2Proof/Laws/Ops.lean ====
section
/-!
SUPPORT. What each shared operation over registers, stack and run state does, once.
-/
namespace Sys2Proof.Machine

/-! ## Registers -/

theorem State.readV_writeV (s : State) (x y : VReg) (n : Nat) :
    (s.writeV x n).readV y = if x = y then BitVec.ofNat 8 n else s.readV y := by
  simp only [State.readV, State.writeV_v, Fin.getElem_fin, Vector.getElem_set, Fin.ext_iff]

@[simp] theorem State.readV_writeV_self (s : State) (x : VReg) (n : Nat) :
    (s.writeV x n).readV x = BitVec.ofNat 8 n := by
  rw [State.readV_writeV, if_pos rfl]

theorem State.readV_writeV_of_ne (s : State) {x y : VReg} (n : Nat) (h : x ≠ y) :
    (s.writeV x n).readV y = s.readV y := by
  rw [State.readV_writeV, if_neg h]

/-- Reading depends on the registers alone. -/
theorem State.readV_congr {s t : State} (h : t.v = s.v) (x : VReg) : t.readV x = s.readV x := by
  simp only [State.readV, h]

/-- Adding in the naturals and narrowing is adding modulo the width. -/
theorem ofNat_toNat_add {w : Nat} (a : BitVec w) (n : Nat) : BitVec.ofNat w (a.toNat + n) = a + BitVec.ofNat w n := by
  rw [BitVec.ofNat_add, BitVec.ofNat_toNat, BitVec.setWidth_eq]

theorem State.advance_eq (s : State) : s.advance = { s with pc := s.pc + 2 } := by
  simp only [State.advance, State.writePC, Config.chip8_instrBytes, ofNat_toNat_add]; rfl

theorem State.skip_eq (s : State) : s.skip = { s with pc := s.pc + 4 } := by
  simp only [State.skip, State.writePC, Config.chip8_instrBytes, ofNat_toNat_add]; rfl

/-- A register write and the advance after it. -/
theorem State.writeV_advance_eq (s : State) (x : VReg) (n : Nat) :
    (s.writeV x n).advance = { s with v := s.v.set x (BitVec.ofNat 8 n), pc := s.pc + 2 } := by
  rw [State.advance_eq]; rfl

theorem State.regEquals_iff (s : State) (x : VReg) (nn : Byte) : s.regEquals x nn = true ↔ s.readV x = nn := by
  simp [State.regEquals, State.value, immediate, BitVec.toNat_inj]

/-! ## Call stack -/

theorem State.pushWithin_of_lt {depth : Nat} (s : State) (a : Nat) (h : s.stack.length < depth) :
    s.pushWithin depth a = .ok { s with stack := BitVec.ofNat 16 a :: s.stack } := if_pos h

theorem State.pushWithin_of_full {depth : Nat} (s : State) (a : Nat) (h : depth ≤ s.stack.length) :
    s.pushWithin depth a = .error .addressingFault := if_neg (Nat.not_lt.mpr h)

theorem State.push_of_lt (s : State) (a : Nat) (h : s.stack.length < 16) :
    s.push a = .ok { s with stack := BitVec.ofNat 16 a :: s.stack } := s.pushWithin_of_lt a h

theorem State.push_of_full (s : State) (a : Nat) (h : 16 ≤ s.stack.length) : s.push a = .error .addressingFault :=
  s.pushWithin_of_full a h

theorem State.pop_of_nil (s : State) (h : s.stack = []) : s.pop = .error .stackUnderflow := by
  simp only [State.pop, h]

theorem State.pop_of_cons (s : State) {a : Word} {rest : List Word} (h : s.stack = a :: rest) :
    s.pop = .ok (a, { s with stack := rest }) := by
  simp only [State.pop, h]

/-! ## Halts -/

@[simp] theorem conclude_ok (s t : State) : conclude s (.ok t) = .next t := rfl
@[simp] theorem conclude_error (s : State) (r : HaltReason) : conclude s (.error r) = .next (s.halt r) := rfl

/-- A rule always ends in a next state. -/
theorem conclude_next (s : State) (r : Except HaltReason State) : ∃ t, conclude s r = .next t := by
  cases r <;> exact ⟨_, rfl⟩

/-- An instruction always answers a next state: all its writes, or the halt of the state it started from (R115). -/
theorem conclude_cases {s t : State} {r : Except HaltReason State} (h : conclude s r = .next t) :
    r = .ok t ∨ ∃ why, r = .error why ∧ t = s.halt why := by
  cases r with
  | ok u => left; simpa using h
  | error why => right; exact ⟨why, rfl, by simpa using h.symm⟩

/-! ## The stop sample -/

theorem State.stopSample_cons (s : State) {b : Bool} {rest : List Bool} (h : s.stop = b :: rest) : s.stopSample = b := by
  simp only [State.stopSample, h, List.headD_cons]

theorem State.stopSample_nil (s : State) (h : s.stop = []) : s.stopSample = false := by
  simp only [State.stopSample, h, List.headD_nil]

end Sys2Proof.Machine
end

