-- ==== Sys2Proof/Laws/Display.lean ====
section
/-!
SUPPORT. The compositor without its loops: a draw XORs each pixel with the one sprite bit that lands on it, and collides where
that bit is 1 and the pixel was 1 (spec/44_display.md R171, R173, R174).
-/
namespace Sys2Proof.Machine

variable {sw sh : Nat}

/-! ## Pixels -/

@[simp] theorem FrameBuffer.pixel_blank (y : Fin sh) (x : Fin sw) : (FrameBuffer.blank : FrameBuffer sw sh).pixel y x = false := by
  simp [FrameBuffer.pixel, FrameBuffer.blank]

/-- Two frame buffers with the same pixels are equal. -/
theorem FrameBuffer.ext_pixel {fb fb' : FrameBuffer sw sh} (h : ∀ y x, fb.pixel y x = fb'.pixel y x) : fb = fb' := by
  apply Vector.ext
  intro y hy
  apply Vector.ext
  intro x hx
  exact h ⟨y, hy⟩ ⟨x, hx⟩

theorem FrameBuffer.pixel_xorPixel (fb : FrameBuffer sw sh) (y y' : Fin sh) (x x' : Fin sw) (bit : Bool) :
    (fb.xorPixel y x bit).pixel y' x' = xor (fb.pixel y' x') (decide (y = y' ∧ x = x') && bit) := by
  simp only [FrameBuffer.pixel, FrameBuffer.xorPixel, Fin.getElem_fin, Vector.getElem_set]
  by_cases hy : y = y'
  · subst hy
    simp only [if_true, Vector.getElem_set, Fin.ext_iff, true_and]
    by_cases hx : x = x'
    · subst hx; simp
    · have : x.val ≠ x'.val := fun h => hx (Fin.ext h)
      simp [this]
  · have : y.val ≠ y'.val := fun h => hy (Fin.ext h)
    simp [this, hy]

/-! ## Columns and rows of one draw are distinct (R173) -/

/-- Sums that reduce alike and differ by less than the modulus are equal. -/
theorem ofNat_add_inj {m v a b : Nat} [NeZero m] (ha : a < m) (hb : b < m) (h : Fin.ofNat m (v + a) = Fin.ofNat m (v + b)) :
    a = b := by
  have e : v + a ≡ v + b [MOD m] := congrArg Fin.val h
  have e := Nat.ModEq.add_left_cancel' v e
  rwa [Nat.ModEq, Nat.mod_eq_of_lt ha, Nat.mod_eq_of_lt hb] at e

theorem val_column [NeZero sw] (n : Nat) : (column sw n).val = n % sw := rfl
theorem val_screenRow [NeZero sh] (n : Nat) : (screenRow sh n).val = n % sh := rfl

variable [NeZero sw]

theorem column_inj (hw : 8 ≤ sw) {vx a b : Nat} (ha : a < 8) (hb : b < 8) (h : column sw (vx + a) = column sw (vx + b)) :
    a = b := ofNat_add_inj (by omega) (by omega) h

theorem screenRow_inj [NeZero sh] {vy a b : Nat} (ha : a < sh) (hb : b < sh)
    (h : screenRow sh (vy + a) = screenRow sh (vy + b)) : a = b := ofNat_add_inj ha hb h

/-! ## One row -/

/-- Whether one of the bits listed puts a 1 on column x. -/
def rowCovers (b : Byte) (vx : Nat) (bits : List Nat) (x : Fin sw) : Bool :=
  bits.any fun bit => decide (column sw (vx + bit) = x) && spriteBit b bit

theorem rowCovers_eq_true (b : Byte) (vx : Nat) (bits : List Nat) (x : Fin sw) :
    rowCovers b vx bits x = true ↔ ∃ bit ∈ bits, column sw (vx + bit) = x ∧ spriteBit b bit = true := by
  simp [rowCovers]

/-- No bit lands where none of the listed columns is. -/
theorem rowCovers_of_absent {b : Byte} {vx : Nat} {bits : List Nat} {x : Fin sw}
    (h : ∀ bit ∈ bits, column sw (vx + bit) ≠ x) : rowCovers b vx bits x = false := by
  rw [Bool.eq_false_iff, ne_eq, rowCovers_eq_true]
  rintro ⟨bit, hm, hx, -⟩
  exact h bit hm hx

theorem pixel_foldl_plot (b : Byte) (vx : Nat) (y : Fin sh) (bits : List Nat) (c : Canvas sw sh)
    (hd : bits.Pairwise fun i j => column sw (vx + i) ≠ column sw (vx + j)) (y' : Fin sh) (x' : Fin sw) :
    (bits.foldl (fun c bit => c.plot y (column sw (vx + bit)) (spriteBit b bit)) c).fb.pixel y' x' =
      xor (c.fb.pixel y' x') (decide (y = y') && rowCovers b vx bits x') := by
  induction bits generalizing c with
  | nil => simp [rowCovers]
  | cons i bits ih =>
    rw [List.pairwise_cons] at hd
    rw [List.foldl_cons, ih _ hd.2, Canvas.plot, FrameBuffer.pixel_xorPixel]
    have hc : rowCovers b vx (i :: bits) x' = (decide (column sw (vx + i) = x') && spriteBit b i || rowCovers b vx bits x') := rfl
    rw [hc]
    by_cases hx : column sw (vx + i) = x'
    · have h0 : rowCovers b vx bits x' = false := rowCovers_of_absent fun j hj h => hd.1 j hj (hx.trans h.symm)
      by_cases hy : y = y' <;> simp [h0, hx, hy]
    · simp [hx]

theorem collision_foldl_plot (b : Byte) (vx : Nat) (y : Fin sh) (bits : List Nat) (c : Canvas sw sh)
    (hd : bits.Pairwise fun i j => column sw (vx + i) ≠ column sw (vx + j)) :
    (bits.foldl (fun c bit => c.plot y (column sw (vx + bit)) (spriteBit b bit)) c).collision = true ↔
      c.collision = true ∨ ∃ x', c.fb.pixel y x' = true ∧ rowCovers b vx bits x' = true := by
  induction bits generalizing c with
  | nil => simp [rowCovers]
  | cons i bits ih =>
    rw [List.pairwise_cons] at hd
    rw [List.foldl_cons, ih _ hd.2]
    simp only [Canvas.plot, Bool.or_eq_true, collides, Bool.and_eq_true, FrameBuffer.pixel_xorPixel, or_assoc,
      rowCovers_eq_true, List.exists_mem_cons_iff]
    refine or_congr_right ⟨?_, ?_⟩
    · rintro (⟨hp, hs⟩ | ⟨x', hp, bit, hb, hx, hs⟩)
      · exact ⟨_, hp, .inl ⟨rfl, hs⟩⟩
      · have hne : column sw (vx + i) ≠ x' := fun h => hd.1 bit hb (h.trans hx.symm)
        refine ⟨x', ?_, .inr ⟨bit, hb, hx, hs⟩⟩
        simpa [hne] using hp
    · rintro ⟨x', hp, (⟨hx, hs⟩ | ⟨bit, hb, hx, hs⟩)⟩
      · subst hx; exact .inl ⟨hp, hs⟩
      · have hne : column sw (vx + i) ≠ x' := fun h => hd.1 bit hb (h.trans hx.symm)
        exact .inr ⟨x', by simpa [hne] using hp, bit, hb, hx, hs⟩

theorem pairwise_columns (hw : 8 ≤ sw) (vx : Nat) : (List.range 8).Pairwise fun i j => column sw (vx + i) ≠ column sw (vx + j) := by
  refine List.Pairwise.imp_of_mem ?_ (List.pairwise_lt_range (n := 8))
  intro i j hi hj hlt h
  exact absurd (column_inj hw (List.mem_range.mp hi) (List.mem_range.mp hj) h) (by omega)

/-! ## The whole sprite -/

variable [NeZero sh]

/-- Whether the sprite puts a 1 on row y, column x. -/
def spriteCovers (vx vy : Nat) : List Byte → Fin sh → Fin sw → Bool
  | [], _, _ => false
  | b :: rest, y, x => decide (screenRow sh vy = y) && rowCovers b vx (List.range 8) x || spriteCovers vx (vy + 1) rest y x

/-- The sprite covers a pixel when one of its bits is 1 and lands there (R171, R173). -/
theorem spriteCovers_eq_true (vx vy : Nat) (rows : List Byte) (y : Fin sh) (x : Fin sw) :
    spriteCovers vx vy rows y x = true ↔
      ∃ row, row < rows.length ∧ ∃ bit, bit < 8 ∧ screenRow sh (vy + row) = y ∧ column sw (vx + bit) = x ∧
        spriteBit (rows.getD row 0) bit = true := by
  induction rows generalizing vy with
  | nil => simp [spriteCovers]
  | cons b rest ih =>
    simp only [spriteCovers, Bool.or_eq_true, Bool.and_eq_true, decide_eq_true_eq, rowCovers_eq_true, List.mem_range, ih]
    constructor
    · rintro (⟨hy, bit, hb, hx, hs⟩ | ⟨row, hr, bit, hb, hy, hx, hs⟩)
      · exact ⟨0, by simp, bit, hb, hy, hx, hs⟩
      · exact ⟨row + 1, by simpa using hr, bit, hb, by rw [← hy]; congr 1; omega, hx, by simpa using hs⟩
    · rintro ⟨row, hr, bit, hb, hy, hx, hs⟩
      cases row with
      | zero => exact .inl ⟨hy, bit, hb, hx, hs⟩
      | succ row =>
        exact .inr ⟨row, by simpa using hr, bit, hb, by rw [← hy]; congr 1; omega, hx, by simpa using hs⟩

/-- The pixels after a draw: each XORed with the sprite's bit there. -/
theorem pixel_drawRows (c : Canvas sw sh) (vx vy : Nat) (rows : List Byte) (hw : 8 ≤ sw) (hr : rows.length ≤ sh) (y : Fin sh) (x : Fin sw) :
    (Canvas.drawRows c vx vy rows).fb.pixel y x = xor (c.fb.pixel y x) (spriteCovers vx vy rows y x) := by
  induction rows generalizing c vy with
  | nil => simp [Canvas.drawRows, spriteCovers]
  | cons b rest ih =>
    simp only [List.length_cons] at hr
    rw [Canvas.drawRows, ih _ _ (by omega), Canvas.drawRow, Config.chip8_spriteW,
      pixel_foldl_plot b vx _ _ c (pairwise_columns hw vx), spriteCovers]
    by_cases hy : screenRow sh vy = y
    · have h0 : spriteCovers vx (vy + 1) rest y x = false := by
        rw [Bool.eq_false_iff, ne_eq, spriteCovers_eq_true]
        rintro ⟨row, hrow, bit, -, hy', -⟩
        have h1 : screenRow sh (vy + 0) = screenRow sh (vy + (row + 1)) := by
          rw [Nat.add_zero, hy, ← hy']; congr 1; omega
        exact absurd (screenRow_inj (by omega) (by omega) h1) (by omega)
      simp [h0, hy]
    · simp [hy]

/-- A draw collides when it puts a 1 on a pixel that was 1 (R174). -/
theorem collision_drawRows (c : Canvas sw sh) (vx vy : Nat) (rows : List Byte) (hw : 8 ≤ sw) (hr : rows.length ≤ sh) :
    (Canvas.drawRows c vx vy rows).collision = true ↔
      c.collision = true ∨ ∃ y x, c.fb.pixel y x = true ∧ spriteCovers vx vy rows y x = true := by
  induction rows generalizing c vy with
  | nil => simp [Canvas.drawRows, spriteCovers]
  | cons b rest ih =>
    simp only [List.length_cons] at hr
    rw [Canvas.drawRows, ih _ _ (by omega), Canvas.drawRow, Config.chip8_spriteW,
      collision_foldl_plot b vx _ _ c (pairwise_columns hw vx), or_assoc]
    refine or_congr_right ?_
    have hp := fun y x => pixel_foldl_plot b vx (screenRow sh vy) _ c (pairwise_columns hw vx) y x
    have hfar : ∀ (y : Fin sh) (x : Fin sw), spriteCovers vx (vy + 1) rest y x = true → screenRow sh vy ≠ y := by
      intro y x h hy
      obtain ⟨row, hrow, bit, -, hy', -⟩ := (spriteCovers_eq_true _ _ _ _ _).mp h
      have h1 : screenRow sh (vy + 0) = screenRow sh (vy + (row + 1)) := by
        rw [Nat.add_zero, hy, ← hy']; congr 1; omega
      exact absurd (screenRow_inj (by omega) (by omega) h1) (by omega)
    constructor
    · rintro (⟨x, h1, h2⟩ | ⟨y, x, h1, h2⟩)
      · exact ⟨screenRow sh vy, x, h1, by simp [spriteCovers, h2]⟩
      · refine ⟨y, x, ?_, by simp [spriteCovers, h2]⟩
        rw [hp] at h1
        simpa [hfar y x h2] using h1
    · rintro ⟨y, x, h1, h2⟩
      simp only [spriteCovers, Bool.or_eq_true, Bool.and_eq_true, decide_eq_true_eq] at h2
      rcases h2 with ⟨rfl, h2⟩ | h2
      · exact .inl ⟨x, h1, h2⟩
      · refine .inr ⟨y, x, ?_, h2⟩
        rw [hp]; simpa [hfar y x h2] using h1

/-! ## A draw on the state -/

@[simp] theorem State.drawSprite_i (s : State) (vx vy : Nat) (rows : List Byte) : (s.drawSprite vx vy rows).i = s.i := rfl
@[simp] theorem State.drawSprite_stack (s : State) (vx vy : Nat) (rows : List Byte) :
    (s.drawSprite vx vy rows).stack = s.stack := rfl
@[simp] theorem State.drawSprite_mem (s : State) (vx vy : Nat) (rows : List Byte) :
    (s.drawSprite vx vy rows).mem = s.mem := rfl
@[simp] theorem State.drawSprite_run (s : State) (vx vy : Nat) (rows : List Byte) :
    (s.drawSprite vx vy rows).run = s.run := rfl
@[simp] theorem State.drawSprite_stop (s : State) (vx vy : Nat) (rows : List Byte) :
    (s.drawSprite vx vy rows).stop = s.stop := rfl
@[simp] theorem State.drawSprite_drawDone (s : State) (vx vy : Nat) (rows : List Byte) :
    (s.drawSprite vx vy rows).drawDone = s.drawDone + 1 := rfl
@[simp] theorem State.drawSprite_pc (s : State) (vx vy : Nat) (rows : List Byte) :
    (s.drawSprite vx vy rows).pc = s.pc + 2 := ofNat_toNat_add s.pc 2
theorem State.drawSprite_fb (s : State) (vx vy : Nat) (rows : List Byte) :
    (s.drawSprite vx vy rows).fb = (Canvas.drawRows { fb := s.fb, collision := false } vx vy rows).fb := rfl

/-- The collision flag of a draw, VF's new value. -/
def drawFlag (s : State) (vx vy : Nat) (rows : List Byte) : Byte :=
  if (Canvas.drawRows { fb := s.fb, collision := false } vx vy rows).collision then 1 else 0

theorem State.drawSprite_v (s : State) (vx vy : Nat) (rows : List Byte) :
    (s.drawSprite vx vy rows).v = s.v.set 15 (drawFlag s vx vy rows) := by
  simp only [State.drawSprite, State.signalDrawDone_v, State.advance_v, State.writeCollision_v, drawFlag]
  congr 1
  split <;> rfl

theorem State.drawSprite_readV (s : State) (vx vy : Nat) (rows : List Byte) (z : VReg) :
    (s.drawSprite vx vy rows).readV z = if z = 15 then drawFlag s vx vy rows else s.readV z := by
  simp only [State.readV, State.drawSprite_v, Fin.getElem_fin, Vector.getElem_set, Fin.ext_iff]
  exact if_congr eq_comm rfl rfl

/-- A draw writes the registers, the frame buffer, PC and the draw count, and nothing else. -/
theorem State.drawSprite_eq (s : State) (vx vy : Nat) (rows : List Byte) :
    s.drawSprite vx vy rows =
      { s with v := (s.drawSprite vx vy rows).v, fb := (s.drawSprite vx vy rows).fb, pc := s.pc + 2,
               drawDone := s.drawDone + 1 } := by
  rw [← State.drawSprite_pc s vx vy rows]; rfl

/-- VF after a draw is 1 exactly where a 1 of the sprite lands on a set pixel (R174). -/
theorem drawFlag_eq (s : State) (vx vy : Nat) (rows : List Byte) (hr : rows.length ≤ 32) [Decidable
    (∃ y x, s.fb.pixel y x = true ∧ spriteCovers vx vy rows y x = true)] :
    drawFlag s vx vy rows = if ∃ y x, s.fb.pixel y x = true ∧ spriteCovers vx vy rows y x = true then 1 else 0 := by
  refine if_congr ((collision_drawRows _ vx vy rows (by decide) hr).trans ?_) rfl rfl
  simp

/-- The sprite that DRW reads covers a pixel when one of its bits is 1 and lands there. -/
theorem spriteCovers_bytesFrom (m : Memory) (base n vx vy : Nat) (y : Fin 32) (x : Fin 64) :
    spriteCovers vx vy (m.bytesFrom base n) y x = true ↔
      ∃ row bit, row < n ∧ bit < 8 ∧ screenRow 32 (vy + row) = y ∧ column 64 (vx + bit) = x ∧
        (m.byteAt (base + row)).getLsbD (7 - bit) = true := by
  rw [spriteCovers_eq_true, Memory.bytesFrom_length]
  constructor
  · rintro ⟨row, hr, bit, hb, hy, hx, hs⟩
    refine ⟨row, bit, hr, hb, hy, hx, ?_⟩
    rwa [List.getD_eq_getElem _ _ (by rwa [Memory.bytesFrom_length]), Memory.bytesFrom_getElem] at hs
  · rintro ⟨row, bit, hr, hb, hy, hx, hs⟩
    refine ⟨row, hr, bit, hb, hy, hx, ?_⟩
    rwa [List.getD_eq_getElem _ _ (by rwa [Memory.bytesFrom_length]), Memory.bytesFrom_getElem]

/-- What DRW answers: the draw of the whole sprite, or the bounds halt. -/
theorem execDrw_eq (x y : VReg) (n : Nibble) (s : State) :
    execDrw x y n s =
      if n.toNat = 0 ∨ s.i.toNat + n.toNat - 1 ≤ 0xFFF then
        .next (s.drawSprite (s.readV x).toNat (s.readV y).toNat (s.mem.bytesFrom s.i.toNat n.toNat))
      else .next (s.halt .addressingFault) := by
  unfold execDrw State.base rowCount
  by_cases h : n.toNat = 0 ∨ s.i.toNat + n.toNat - 1 ≤ 0xFFF
  · rw [if_pos h, Memory.readBytes_ok _ ((inBounds_iff _ _).mpr (h.imp_right fun h => Nat.lt_succ_of_le h))]; rfl
  · rw [if_neg h, Memory.readBytes_error _ (by
      rw [Bool.eq_false_iff, ne_eq, inBounds_iff]
      exact fun h' => h (h'.imp_right fun h => Nat.le_of_lt_succ h))]
    rfl

end Sys2Proof.Machine
end

