-- ==== Sys2Proof/Laws/PerInstr.lean ====
section
/-!
SUPPORT. A statement about every instruction as syntax, one lemma per constructor: the word of a well-formed instruction is the
word of its own row of the opcode map (spec/30_encoding.md R90), or of none where the instruction is Unknown (R100).
-/
namespace Sys2Proof.Laws.OwnRow

/-- The encoded word matches a row that reads the instruction's operands back, or it matches no row and is kept as it is. -/
def Statement (i : Instr) : Prop :=
  i.wf = true →
    (∃ r ∈ opcodeTable, rowMatches r (encode i) = true ∧ r.build (encode i) = i) ∨
    (i = .unknown (encode i) ∧ ∀ r ∈ opcodeTable, rowMatches r (encode i) = false)

/-- The row at index `k` of the map, where it matches and reads the operands back. -/
theorem of_row {i : Instr} (k : Nat) (hk : k < opcodeTable.length) (hm : rowMatches opcodeTable[k] (encode i) = true)
    (hb : opcodeTable[k].build (encode i) = i) : Statement i :=
  fun _ => .inl ⟨opcodeTable[k], List.getElem_mem hk, hm, hb⟩

theorem cls : Statement .cls := of_row 0 (by decide) rfl rfl
theorem ret : Statement .ret := of_row 1 (by decide) rfl rfl

theorem formatA_matches {m : String} {v : Word} {f : Word → Instr} (fam : Nibble) (nnn : Addr)
    (hv : v.toNat = fam.toNat * 4096) : rowMatches ⟨m, 0xF000, v, f⟩ (formatA fam nnn) = true := by
  have := nnn.isLt
  rw [rowMatches_family _ _ _ _ (by omega), decide_eq_true_iff, toNat_formatA]; omega

theorem formatXI_matches {m : String} {v : Word} {f : Word → Instr} (fam : Nibble) (x : VReg) (nn : Byte)
    (hv : v.toNat = fam.toNat * 4096) : rowMatches ⟨m, 0xF000, v, f⟩ (formatXI fam x nn) = true := by
  have := nn.isLt; have := x.isLt
  rw [rowMatches_family _ _ _ _ (by omega), decide_eq_true_iff, toNat_formatXI]; omega

theorem formatXYN_matches {m : String} {v : Word} {f : Word → Instr} (fam : Nibble) (x y : VReg) (n : Nibble)
    (hv : v.toNat = fam.toNat * 4096) : rowMatches ⟨m, 0xF000, v, f⟩ (formatXYN fam x y n) = true := by
  have := n.isLt; have := x.isLt; have := y.isLt
  rw [rowMatches_family _ _ _ _ (by omega), decide_eq_true_iff, toNat_formatXYN]; omega

theorem fieldNNN_formatA (fam : Nibble) (nnn : Addr) : fieldNNN (formatA fam nnn) = nnn := by
  have := nnn.isLt
  apply BitVec.eq_of_toNat_eq; rw [toNat_fieldNNN, toNat_formatA]; omega

theorem fieldX_formatXI (fam : Nibble) (x : VReg) (nn : Byte) : fieldX (formatXI fam x nn) = x := by
  have := nn.isLt; have := x.isLt
  apply Fin.ext; rw [val_fieldX, toNat_formatXI]; omega

theorem fieldNN_formatXI (fam : Nibble) (x : VReg) (nn : Byte) : fieldNN (formatXI fam x nn) = nn := by
  have := nn.isLt
  apply BitVec.eq_of_toNat_eq; rw [toNat_fieldNN, toNat_formatXI]; omega

theorem fieldX_formatXYN (fam : Nibble) (x y : VReg) (n : Nibble) : fieldX (formatXYN fam x y n) = x := by
  have := n.isLt; have := x.isLt; have := y.isLt
  apply Fin.ext; rw [val_fieldX, toNat_formatXYN]; omega

theorem fieldY_formatXYN (fam : Nibble) (x y : VReg) (n : Nibble) : fieldY (formatXYN fam x y n) = y := by
  have := n.isLt; have := y.isLt
  apply Fin.ext; rw [val_fieldY, toNat_formatXYN]; omega

theorem fieldN_formatXYN (fam : Nibble) (x y : VReg) (n : Nibble) : fieldN (formatXYN fam x y n) = n := by
  have := n.isLt
  apply BitVec.eq_of_toNat_eq; rw [toNat_fieldN, toNat_formatXYN]; omega

theorem jp (nnn : Addr) : Statement (.jp nnn) :=
  of_row 2 (by decide) (formatA_matches 0x1 nnn rfl) (congrArg Instr.jp (fieldNNN_formatA 0x1 nnn))

theorem call (nnn : Addr) : Statement (.call nnn) :=
  of_row 3 (by decide) (formatA_matches 0x2 nnn rfl) (congrArg Instr.call (fieldNNN_formatA 0x2 nnn))

theorem se (x : VReg) (nn : Byte) : Statement (.se x nn) :=
  of_row 4 (by decide) (formatXI_matches 0x3 x nn rfl) (congrArg₂ Instr.se (fieldX_formatXI 0x3 x nn) (fieldNN_formatXI 0x3 x nn))

theorem sne (x : VReg) (nn : Byte) : Statement (.sne x nn) :=
  of_row 5 (by decide) (formatXI_matches 0x4 x nn rfl) (congrArg₂ Instr.sne (fieldX_formatXI 0x4 x nn) (fieldNN_formatXI 0x4 x nn))

theorem ldVxNN (x : VReg) (nn : Byte) : Statement (.ldVxNN x nn) :=
  of_row 6 (by decide) (formatXI_matches 0x6 x nn rfl)
    (congrArg₂ Instr.ldVxNN (fieldX_formatXI 0x6 x nn) (fieldNN_formatXI 0x6 x nn))

theorem addVxNN (x : VReg) (nn : Byte) : Statement (.addVxNN x nn) :=
  of_row 7 (by decide) (formatXI_matches 0x7 x nn rfl)
    (congrArg₂ Instr.addVxNN (fieldX_formatXI 0x7 x nn) (fieldNN_formatXI 0x7 x nn))

theorem ldVxVy (x y : VReg) : Statement (.ldVxVy x y) := by
  refine of_row 8 (by decide) ?_ (congrArg₂ Instr.ldVxVy (fieldX_formatXYN 0x8 x y 0) (fieldY_formatXYN 0x8 x y 0))
  have := x.isLt; have := y.isLt
  refine (rowMatches_family_nibble _ 0x8000 _ _ (by decide)).trans (decide_eq_true ?_)
  rw [encode, toNat_formatXYN]
  constructor
  · show (8 * 4096 + x.val * 256 + y.val * 16 + 0) / 4096 = 8; omega
  · show (8 * 4096 + x.val * 256 + y.val * 16 + 0) % 16 = 0; omega

theorem ldINNN (nnn : Addr) : Statement (.ldINNN nnn) :=
  of_row 9 (by decide) (formatA_matches 0xA nnn rfl) (congrArg Instr.ldINNN (fieldNNN_formatA 0xA nnn))

theorem drw (x y : VReg) (n : Nibble) : Statement (.drw x y n) := by
  refine of_row 10 (by decide) (formatXYN_matches 0xD x y n rfl) ?_
  show Instr.drw _ _ _ = _
  rw [encode, fieldX_formatXYN, fieldY_formatXYN, fieldN_formatXYN]

theorem addIVx (x : VReg) : Statement (.addIVx x) := by
  refine of_row 11 (by decide) ?_ (congrArg Instr.addIVx (fieldX_formatXI 0xF x 0x1E))
  have := x.isLt
  refine (rowMatches_family_byte _ 0xF01E _ _ (by decide)).trans (decide_eq_true ?_)
  rw [encode, toNat_formatXI]
  constructor
  · show (15 * 4096 + x.val * 256 + 30) / 4096 = 15; omega
  · show (15 * 4096 + x.val * 256 + 30) % 256 = 30; omega

/-- What each row tests, against the family table of R91: a word outside the table matches no row. -/
theorem no_row_of_unsupported {w : Word} (h : supportedWord w = false) : ∀ r ∈ opcodeTable, rowMatches r w = false := by
  rw [Bool.eq_false_iff, ne_eq, supportedWord_iff] at h
  simp only [opcodeTable, List.forall_mem_cons, List.not_mem_nil, false_implies, implies_true, and_true]
  refine ⟨?_, ?_, ?_, ?_, ?_, ?_, ?_, ?_, ?_, ?_, ?_, ?_⟩
  · rw [rowMatches_all]; exact decide_eq_false fun e => h (by simp_all)
  · rw [rowMatches_all]; exact decide_eq_false fun e => h (by simp_all)
  · rw [rowMatches_family _ _ _ _ (by decide)]; exact decide_eq_false fun e => h (by simp_all)
  · rw [rowMatches_family _ _ _ _ (by decide)]; exact decide_eq_false fun e => h (by simp_all)
  · rw [rowMatches_family _ _ _ _ (by decide)]; exact decide_eq_false fun e => h (by simp_all)
  · rw [rowMatches_family _ _ _ _ (by decide)]; exact decide_eq_false fun e => h (by simp_all)
  · rw [rowMatches_family _ _ _ _ (by decide)]; exact decide_eq_false fun e => h (by simp_all)
  · rw [rowMatches_family _ _ _ _ (by decide)]; exact decide_eq_false fun e => h (by simp_all)
  · rw [rowMatches_family_nibble _ _ _ _ (by decide)]; exact decide_eq_false fun e => h (by simp_all)
  · rw [rowMatches_family _ _ _ _ (by decide)]; exact decide_eq_false fun e => h (by simp_all)
  · rw [rowMatches_family _ _ _ _ (by decide)]; exact decide_eq_false fun e => h (by simp_all)
  · rw [rowMatches_family_byte _ _ _ _ (by decide)]; exact decide_eq_false fun e => h (by simp_all)

theorem unknown (w : Word) : Statement (.unknown w) := by
  intro h
  have hw : supportedWord w = false := by simpa only [Instr.wf, Bool.not_eq_true'] using h
  exact .inr ⟨rfl, no_row_of_unsupported hw⟩

end Sys2Proof.Laws.OwnRow
end

