-- ==== Sys2Proof/Laws/Step.lean ====
section
/-!
SUPPORT. What a step can do, said once: the stages of spec/40_step_cycle.md as equations, and the inversion of a step.
-/
namespace Sys2Proof.Machine

theorem step_of_halted {s : State} {r : HaltReason} (h : s.run = .halted r) : step s = .fault (.halted r) := by
  simp only [step, cycle, cycleWith, h]

theorem step_of_stop {s : State} (h : s.run = .running) (hs : s.stopSample = true) :
    step s = .next (s.takeSample.halt .externalStop) := by
  simp only [step, cycle, cycleWith, h, hs, if_true]

theorem step_of_go {s : State} (h : s.run = .running) (hs : s.stopSample = false) :
    step s = fetchAndExecute s.takeSample := by
  simp only [step, cycle, fetchAndExecute, cycleWith, h, hs, Bool.false_eq_true, if_false]

theorem fetchAndExecute_of_lt {s : State} (h : s.pc.toNat < 0x0FFF) :
    fetchAndExecute s = exec (decode (s.mem.byteAt s.pc.toNat ++ s.mem.byteAt (s.pc.toNat + 1))) s := by
  simp only [fetchAndExecute, fetchAndExecuteWith, State.fetch_ok s h]

theorem fetchAndExecute_of_ge {s : State} (h : 0x0FFF ≤ s.pc.toNat) :
    fetchAndExecute s = .next (s.halt .addressingFault) := by
  simp only [fetchAndExecute, fetchAndExecuteWith, State.fetch_error s h]

/-- At this hardware's parameters the configurable step is the step. -/
theorem execOn_chip8 : execOn Config.chip8 = exec := by
  funext i s
  cases i <;> rfl

theorem step_eq_cycleOn (s : State) : step s = cycleOn Config.chip8 s := by
  rw [cycleOn, execOn_chip8]; rfl

/-- CALL at any call-stack depth: the push and the jump, or the halt. -/
theorem callWithin_eq (depth : Nat) (nnn : Addr) (s : State) :
    callWithin depth nnn s =
      if s.stack.length < depth then .next { s with pc := nnn.setWidth 16, stack := (s.pc + 2) :: s.stack }
      else .next (s.halt .addressingFault) := by
  unfold callWithin
  split
  next h =>
    rw [State.pushWithin_of_lt s _ h, Except.map, conclude_ok, Config.chip8_instrBytes, ofNat_toNat_add]
    simp only [State.writePC, embedded, BitVec.ofNat_toNat]
    rfl
  next h => rw [State.pushWithin_of_full s _ (Nat.not_lt.mp h), Except.map, conclude_error]

/-- The inversion of a step: which stage ended it. -/
theorem step_cases {s t : State} (h : step s = .next t) :
    s.run = .running ∧
      ((s.stopSample = true ∧ t = s.takeSample.halt .externalStop) ∨
       (s.stopSample = false ∧ 0x0FFF ≤ s.pc.toNat ∧ t = s.takeSample.halt .addressingFault) ∨
       (s.stopSample = false ∧ s.pc.toNat < 0x0FFF ∧
        exec (decode (s.mem.byteAt s.pc.toNat ++ s.mem.byteAt (s.pc.toNat + 1))) s.takeSample = .next t)) := by
  cases hr : s.run with
  | halted r => rw [step_of_halted hr] at h; cases h
  | running =>
    refine ⟨rfl, ?_⟩
    cases hs : s.stopSample with
    | true =>
      rw [step_of_stop hr hs] at h
      cases h
      exact .inl ⟨rfl, rfl⟩
    | false =>
      rw [step_of_go hr hs] at h
      by_cases hp : s.pc.toNat < 0x0FFF
      · exact .inr (.inr ⟨rfl, hp, (fetchAndExecute_of_lt (s := s.takeSample) hp).symm.trans h⟩)
      · rw [fetchAndExecute_of_ge (s := s.takeSample) (Nat.not_lt.mp hp)] at h
        cases h
        exact .inr (.inl ⟨rfl, Nat.not_lt.mp hp, rfl⟩)

end Sys2Proof.Machine
end

