-- ==== Sys2Proof/Tests/Slice0.lean ====
section
/-!
SUPPORT. Tests of the model against the vectors of spec/95_test_vectors.md (named in each docstring), and for each statement with
hypotheses a witness that meets them. Expected values are the spec's; the words are written out from the encodings of R85 and R90.
-/
namespace Sys2Proof.Tests
open Sys2Proof Sys2Proof.Machine

/-! ## Helpers -/

/-- The state an outcome goes on with. -/
def goesOn : Host.Outcome State Fault Refusal → Option State
  | .next t => some t
  | .fault _ => none
  | .refused _ => none

/-- One step from `s` with the word placed at its PC. -/
def ran (s : State) (w : Nat) : Option State := goesOn (step (s.withFetchWord 16 w))

/-- Two steps: the word, then whatever is at PC. -/
def ranTwice (s : State) (w : Nat) : Option State := (ran s w).bind fun t => goesOn (step t)

/-- The reset state at another PC. -/
def atPC (p : Word) : State := { State.reset with pc := p }

/-- A stack of `n` equal entries. -/
def deep (n : Nat) : State := { atPC 0x0400 with stack := List.replicate n 0x0202 }

/-- The frame buffer with exactly the listed pixels (y, x) set. -/
def screen (set : List (Fin 32 × Fin 64)) : FrameBuffer 64 32 :=
  set.foldl (fun fb p => fb.set p.1 (fb[p.1].set p.2 true)) FrameBuffer.blank

/-- The pixels of one row at some columns. -/
def look (fb : FrameBuffer 64 32) (y : Fin 32) (cols : List (Fin 64)) : List Bool := cols.map (fb.pixel y)

/-- A register bank with the listed values, every other register 0. -/
def bank (vals : List (Nat × Byte)) : Vector Byte 16 := Vector.ofFn fun k => (vals.lookup k.val).getD 0

/-- A state for a draw: registers, I, frame buffer, sprite bytes from I up. -/
def drawing (vals : List (Nat × Byte)) (i : Addr) (fb : FrameBuffer 64 32) (sprite : List Byte) : State :=
  { State.reset with v := bank vals, i := i, fb := fb, mem := Memory.setBytes [] i.toNat sprite }

/-! ## Well-formedness: the one check there is, refused and accepted -/

theorem test_wf_refuses_unknown_with_a_supported_word :
    (Instr.unknown 0x00E0).wf = false ∧ (Instr.unknown 0x00EE).wf = false ∧ (Instr.unknown 0x1234).wf = false ∧
    (Instr.unknown 0x8120).wf = false ∧ (Instr.unknown 0xF51E).wf = false := by decide

theorem test_wf_accepts :
    (Instr.unknown 0x5120).wf = true ∧ (Instr.unknown 0x8121).wf = true ∧ (Instr.drw 15 15 15).wf = true := by decide

/-! ## Decoding and encoding: words written out bit by bit (2.1) -/

theorem test_decode_cls : decode 0b0000000011100000 = .cls := by decide
theorem test_decode_ret : decode 0b0000000011101110 = .ret := by decide
theorem test_decode_jp : decode 0b0001111111111110 = .jp 0xFFE := by decide
theorem test_decode_call : decode 0b0010101010111100 = .call 0xABC := by decide
theorem test_decode_se : decode 0b0011111100000001 = .se 15 0x01 := by decide
theorem test_decode_sne : decode 0b0100101011111110 = .sne 10 0xFE := by decide
theorem test_decode_ldVxNN : decode 0b0110110010000000 = .ldVxNN 12 0x80 := by decide
theorem test_decode_addVxNN : decode 0b0111000000000001 = .addVxNN 0 0x01 := by decide
theorem test_decode_ldVxVy : decode 0b1000000100100000 = .ldVxVy 1 2 := by decide
theorem test_decode_ldINNN : decode 0b1010111111111110 = .ldINNN 0xFFE := by decide
theorem test_decode_drw : decode 0b1101101010111111 = .drw 10 11 15 := by decide
theorem test_decode_addIVx : decode 0b1111111100011110 = .addIVx 15 := by decide
theorem test_decode_unknown : decode 0b0101000100100000 = .unknown 0x5120 := by decide

/-- Every word that 2.1 lists as Unknown. -/
theorem test_decode_unknown_family_0 :
    decode 0x0000 = .unknown 0x0000 ∧ decode 0x00E1 = .unknown 0x00E1 ∧ decode 0x00EF = .unknown 0x00EF ∧
    decode 0x01E0 = .unknown 0x01E0 ∧ decode 0x0200 = .unknown 0x0200 := by
  refine ⟨?_, ?_, ?_, ?_, ?_⟩ <;> decide

theorem test_decode_unknown_family_8 :
    decode 0x8121 = .unknown 0x8121 ∧ decode 0x8124 = .unknown 0x8124 ∧ decode 0x812E = .unknown 0x812E := by
  refine ⟨?_, ?_, ?_⟩ <;> decide

theorem test_decode_unknown_other_families :
    decode 0x9120 = .unknown 0x9120 ∧ decode 0xB200 = .unknown 0xB200 ∧ decode 0xC0FF = .unknown 0xC0FF ∧
    decode 0xE09E = .unknown 0xE09E := by
  refine ⟨?_, ?_, ?_, ?_⟩ <;> decide

theorem test_decode_unknown_family_F :
    decode 0xF01F = .unknown 0xF01F ∧ decode 0xF11D = .unknown 0xF11D ∧ decode 0xF007 = .unknown 0xF007 ∧
    decode 0xF065 = .unknown 0xF065 ∧ decode 0xFFFF = .unknown 0xFFFF := by
  refine ⟨?_, ?_, ?_, ?_, ?_⟩ <;> decide

/-- The encoder on the listed words of 2.1. -/
theorem test_encode_words :
    encode .cls = 0x00E0 ∧ encode .ret = 0x00EE ∧ encode (.jp 0xFFF) = 0x1FFF ∧ encode (.call 0xABC) = 0x2ABC ∧
    encode (.se 15 0) = 0x3F00 ∧ encode (.sne 10 0xFF) = 0x4AFF ∧ encode (.ldVxNN 12 0x80) = 0x6C80 ∧
    encode (.addVxNN 0 1) = 0x7001 ∧ encode (.ldVxVy 1 2) = 0x8120 ∧ encode (.ldINNN 0xFFF) = 0xAFFF ∧
    encode (.drw 10 11 15) = 0xDABF ∧ encode (.addIVx 15) = 0xFF1E ∧ encode (.unknown 0x5120) = 0x5120 := by decide

/-- The first byte is the high byte: 12 04 is 0x1204, `JP 0x204`, not 0x0412. -/
theorem test_byte_order : decodeBytes [0x12, 0x04, 0xFF] = .ok (.jp 0x204, [0xFF]) ∧ encodeBytes (.jp 0x204) = [0x12, 0x04] := by
  decide

/-- A word placed as the host numbers its bits is read as it stands. -/
theorem test_decodeTableWord :
    decodeTableWord 16 0x00E0 = some .cls ∧ decodeTableWord 16 0x00EE = some .ret ∧ decodeTableWord 16 0x1FFF = some (.jp 0xFFF) ∧
    decodeTableWord 16 0x8120 = some (.ldVxVy 1 2) ∧ decodeTableWord 16 0xDABF = some (.drw 10 11 15) ∧
    decodeTableWord 16 0xF51E = some (.addIVx 5) ∧ decodeTableWord 16 0x0000 = some (.unknown 0) := by decide

/-! ## Control transfer (2.2) -/

/-- CT2, CT4: an odd target; a jump to 0xFFF runs, and the next step halts with PC there. -/
theorem test_jp : (ran (atPC 0x0300) 0x1203).map (fun t => (t.pc, t.run)) = some (0x0203, .running) := by decide

theorem test_jp_to_end : (ranTwice (atPC 0x0300) 0x1FFF).map (fun t => (t.pc, t.run)) =
    some (0x0FFF, .halted .addressingFault) := by decide

/-- CT6, CT8: the pushed address is PC + 2, not truncated to 12 bits. -/
theorem test_call : (ran (deep 15) 0x2500).map (fun t => (t.pc, t.stack.length, t.stack.head?)) =
    some (0x0500, 16, some 0x0402) := by decide

theorem test_call_untruncated : (ran (atPC 0x0FFE) 0x2300).map (fun t => (t.pc, t.stack)) = some (0x0300, [0x1000]) := by decide

/-- CT7. -/
theorem test_call_on_full_stack : (ran (deep 16) 0x2500).map (fun t => (t.pc, t.stack.length, t.run)) =
    some (0x0400, 16, .halted .addressingFault) := by decide

/-- CT11: the stack [0x0202, 0x0310] is written bottom first in the spec, top first in the model. -/
theorem test_ret : (ran { atPC 0x0208 with stack := [0x0310, 0x0202] } 0x00EE).map (fun t => (t.pc, t.stack)) =
    some (0x0310, [0x0202]) := by decide

/-- CT12. -/
theorem test_ret_on_empty_stack : (ran (atPC 0x0208) 0x00EE).map (fun t => (t.pc, t.run)) =
    some (0x0208, .halted .stackUnderflow) := by decide

/-- CT18, CT21. -/
theorem test_se_taken : (ran { atPC 0x0300 with v := bank [(0, 0x80)] } 0x3080).map (·.pc) = some 0x0304 := by decide
theorem test_se_not_taken : (ran { atPC 0x0FFE with v := bank [(0, 1)] } 0x3000).map (·.pc) = some 0x1000 := by decide

/-- CT15, CT16. -/
theorem test_sne_not_taken : (ran { atPC 0x0300 with v := bank [(3, 0x2A)] } 0x432A).map (·.pc) = some 0x0302 := by decide
theorem test_sne_taken : (ran { atPC 0x0300 with v := bank [(3, 0x2A)] } 0x432B).map (·.pc) = some 0x0304 := by decide

/-- P4 with a stack depth of 12: the thirteenth nested CALL halts. -/
theorem test_call_at_another_depth :
    (goesOn (execOn { Config.chip8 with stackDepth := 12 } (.call 0x200) (deep 11))).map (fun t => (t.stack.length, t.run)) =
      some (12, .running) ∧
    (goesOn (execOn { Config.chip8 with stackDepth := 12 } (.call 0x200) (deep 12))).map (fun t => (t.stack.length, t.run)) =
      some (12, .halted .addressingFault) := by decide

/-! ## Register operations (2.3) -/

/-- RG2. -/
theorem test_ldVxNN : (ran State.reset 0x6FFF).map (fun t => (t.v, t.pc)) = some (bank [(15, 0xFF)], 0x0202) := by decide

/-- RG3, RG8: the sum wraps, no carry anywhere. -/
theorem test_addVxNN : (ran { State.reset with v := bank [(0, 0xFD), (15, 7)] } 0x7005).map (·.v) =
    some (bank [(0, 0x02), (15, 7)]) := by decide
theorem test_addVxNN_vf : (ran { State.reset with v := bank [(15, 0xFF)] } 0x7F02).map (·.v) = some (bank [(15, 0x01)]) := by decide

/-- RG9, RG12. -/
theorem test_ldVxVy : (ran { State.reset with v := bank [(1, 0x77)] } 0x8100).map (·.v) = some (bank []) := by decide
theorem test_ldVxVy_vf : (ran { State.reset with v := bank [(15, 0x01)] } 0x82F0).map (·.v) =
    some (bank [(2, 0x01), (15, 0x01)]) := by decide

/-! ## Address register (2.4) -/

/-- AR1. -/
theorem test_ldINNN : (ran { State.reset with i := 0x123 } 0xA20E).map (·.i) = some 0x20E := by decide

/-- AR4, AR8. -/
theorem test_addIVx_wraps : (ran { State.reset with i := 0xFFE, v := bank [(0, 0xFF)] } 0xF01E).map (fun t => (t.i, t.v)) =
    some (0x0FD, bank [(0, 0xFF)]) := by decide
theorem test_addIVx_adds_the_value : (ran { State.reset with i := 0x300, v := bank [(5, 9)] } 0xF51E).map (·.i) = some 0x309 := by
  decide

/-! ## Display (2.5) -/

/-- DS1. -/
theorem test_cls : (ran { State.reset with fb := screen [(0, 0), (31, 63)], v := bank [(15, 7)] } 0x00E0).map
    (fun t => (look t.fb 0 [0, 1], look t.fb 31 [62, 63], t.readV 15, t.pc, t.drawDone)) =
    some ([false, false], [false, false], 7, 0x0202, 0) := by decide

/-- DS4: both wraps, and the bit order. -/
theorem test_drw_wraps : (ran (drawing [(0, 0xFF), (1, 0xFF)] 0x300 (screen []) [0x81, 0x42]) 0xD012).map
    (fun t => (look t.fb 31 [63, 0, 5, 6, 7], look t.fb 0 [63, 0, 5, 6, 7], t.readV 15, t.drawDone)) =
    some ([true, false, false, true, false], [false, true, true, false, false], 0, 1) := by decide

/-- DS5: a collision. -/
theorem test_drw_collides : (ran (drawing [] 0x300 (screen [(0, 3)]) [0xFF]) 0xD011).map
    (fun t => (look t.fb 0 [0, 1, 2, 3, 4, 7, 8], t.readV 15)) = some ([true, true, true, false, true, true, false], 1) := by
  decide

/-- DS9: a coordinate in VF is read before the flag is written. -/
theorem test_drw_reads_before_it_writes : (ran (drawing [(15, 5)] 0x300 (screen []) [0x80]) 0xDF01).map
    (fun t => (look t.fb 0 [0, 4, 5, 6], t.readV 15)) = some ([false, false, true, false], 0) := by decide

/-- DS11, DS12: the last byte of memory is readable, the one after it halts before any effect. -/
theorem test_drw_at_the_end : (ran (drawing [] 0xFFF (screen []) [0xFF]) 0xD011).map (fun t => (look t.fb 0 [0, 7, 8], t.run)) =
    some ([true, true, false], .running) := by decide
theorem test_drw_past_the_end : (ran (drawing [(15, 7)] 0xFFF (screen []) [0xFF]) 0xD012).map
    (fun t => (look t.fb 0 [0, 1], t.readV 15, t.pc, t.drawDone, t.run)) =
    some ([false, false], 7, 0x0200, 0, .halted .addressingFault) := by decide

/-- The compositor on the extended screen, 128 by 64: the sprite wraps at column 128. -/
theorem test_compositor_at_another_size :
    let c := Canvas.drawRows (w := 128) (h := 64) ⟨FrameBuffer.blank, false⟩ 124 63 [0xFF]
    [123, 124, 127, 0, 3, 4, 64].map (c.fb.pixel 63) = [false, true, true, true, true, false, false] := by decide

/-- Log entry 9. By R171 and R174 a second identical draw over pixels that were all set before the first does not collide, although
the sprite has a 1 bit: R178's last sentence says it does. -/
theorem test_second_draw_need_not_collide :
    ((ran (drawing [] 0x300 (screen [(0, 0)]) [0x80]) 0xD011).bind fun t => ran t 0xD011).map
      (fun u => (look u.fb 0 [0, 1], u.readV 15)) = some ([true, false], 0) := by decide

/-! ## Unknown, halts and the step (2.6) -/

/-- ST8, RG13. -/
theorem test_unknown : (ran { State.reset with v := bank [(1, 0x77)] } 0x8124).map (fun t => (t.v, t.pc, t.run)) =
    some (bank [(1, 0x77)], 0x0200, .halted .unknownInstruction) := by decide

/-- ST1 to ST3: an asserted stop comes first. -/
theorem test_stop_comes_first :
    (goesOn (step { (State.reset.withFetchWord 16 0x6001) with stop := [true] })).map (fun t => (t.v, t.pc, t.run)) =
      some (bank [], 0x0200, .halted .externalStop) ∧
    (goesOn (step { atPC 0x1000 with stop := [true] })).map (·.run) = some (.halted .externalStop) := by decide

/-- ST4. -/
theorem test_fetch_past_the_end : (goesOn (step (atPC 0x0FFF))).map (fun t => (t.pc, t.run)) =
    some (0x0FFF, .halted .addressingFault) := by decide

/-- ST5: the last word of memory is fetchable. -/
theorem test_fetch_at_the_end : (ran (atPC 0x0FFE) 0x6A07).map (fun t => (t.v, t.pc)) = some (bank [(10, 7)], 0x1000) := by decide

/-- ST7: an odd PC executes. -/
theorem test_fetch_at_odd_pc : (ran (atPC 0x0203) 0x6042).map (fun t => (t.v, t.pc)) = some (bank [(0, 0x42)], 0x0205) := by decide

/-- ST6: a halted machine has no step. -/
theorem test_no_step_after_a_halt : step (State.reset.halt .externalStop) = .fault (.halted .externalStop) := rfl

/-- RS1: with the default MEM_INIT the first step after a reset with the empty image halts. -/
theorem test_first_step_of_empty_image : (goesOn (step State.reset)).map (·.run) = some (.halted .unknownInstruction) := by decide

/-- RS4, RS5: one byte over the largest image, and an odd one. -/
theorem test_reset_rejects (init : Nat → Byte) :
    (goesOn (State.resetWith init (List.replicate 3585 0xFF) [])).map (·.run) = some (.halted .imageTooLarge) ∧
    State.resetWith init [1, 2, 3] [] = .refused .imageOddLength := by
  refine ⟨?_, (State.resetWith_eq init [1, 2, 3] []).2.1 (by simp) (by simp)⟩
  rw [(State.resetWith_eq init _ []).1 (by rw [List.length_replicate]; omega)]
  rfl

/-- The byte an unlisted address reads as leaves no entry; a write over it does. -/
theorem test_memory_form : Memory.setBytes [(0x200, 7)] 0x1FF [1, 0, 2] = [(0x1FF, 1), (0x201, 2)] := by decide

/-! ## Witnesses: for each statement with hypotheses, states and operands that meet them, clause by clause -/

theorem witness_DecodeOfEncode :
    (Instr.cls).wf = true ∧ (Instr.drw 10 11 15).wf = true ∧ (Instr.jp 0xFFF).wf = true ∧ (Instr.unknown 0xF01F).wf = true := by
  decide

theorem witness_MatchingRowDecodes :
    ∃ r ∈ opcodeTable, rowMatches r 0xDABF = true ∧ ∃ r' ∈ opcodeTable, rowMatches r' 0xDABF = true :=
  ⟨opcodeTable[10], List.getElem_mem _, by decide, opcodeTable[10], List.getElem_mem _, by decide⟩

theorem witness_UnknownOutsideFamilyTable :
    (∃ w', decode 0x5120 = .unknown w') ∧ supportedWord 0x5120 = false ∧ supportedWord 0x8120 = true :=
  ⟨⟨_, rfl⟩, by decide, by decide⟩

theorem witness_DecodeBytesHighByteFirst : (Instr.drw 0 0 0).wf = true ∧ (Instr.unknown 0x0000).wf = true := by decide

theorem witness_RegisterWriteIsModulo256 : (14 : VReg) ≠ 15 := by decide

/-- Depths 0, 15 and 16, and a bound of 12. -/
theorem witness_PushIsBounded :
    ((deep 11).stack.length < 12 ∧ 12 ≤ (deep 12).stack.length) ∧
    State.reset.stack.length < 16 ∧ (deep 15).stack.length < 16 ∧ 16 ≤ (deep 16).stack.length := by decide

theorem witness_PopTakesTheTop :
    State.reset.stack = [] ∧ (deep 1).stack = 0x0202 :: [] ∧
    ∃ t, exec .ret (deep 1) = .next t ∧ t.stack.length < (deep 1).stack.length :=
  ⟨rfl, rfl, _, rfl, by decide⟩

/-- The last byte and the last word of memory are in bounds, one byte more is not; a step goes on. -/
theorem witness_MemReadIsBigEndian :
    ((1 ≤ 2 ∧ 0xFFF < 0xFFF + 2 - 1) ∧ (1 ≤ 1 ∧ 0xFFF < 0x1000 + 1 - 1)) ∧
    ((1 ≤ 2 ∧ 0xFFE + 2 - 1 ≤ 0xFFF) ∧ (1 ≤ 1 ∧ 0xFFF + 1 - 1 ≤ 0xFFF)) ∧
    (Memory.wf [(0x200, 7)] ∧ (0xFFF ≤ 0xFFF) ∧ (0x200 : Nat) ≠ 0xFFF) ∧ ∃ t, step State.reset = .next t :=
  ⟨by decide, by decide, by decide, _, rfl⟩

theorem witness_MemWriteStoresBigEndian :
    Memory.wf [(0x200, 7)] ∧ (1 ≤ 2 ∧ 0xFFF < 0xFFF + 2 - 1) ∧ (1 ≤ 2 ∧ 0xFFE + 2 - 1 ≤ 0xFFF) ∧ (1 ≤ 1 ∧ 0 + 1 - 1 ≤ 0xFFF) := by
  decide

/-- Two ways to the same memory: bytes written up and down. -/
theorem witness_EqualReadsEqualMemories :
    (Memory.setByte (Memory.setByte [] 0 5) 0xFFF 6).wf ∧ (Memory.setByte (Memory.setByte [] 0xFFF 6) 0 5).wf ∧
    ∀ a, a ≤ 0xFFF → Memory.byteAt (Memory.setByte (Memory.setByte [] 0 5) 0xFFF 6) a =
      Memory.byteAt (Memory.setByte (Memory.setByte [] 0xFFF 6) 0 5) a :=
  ⟨by decide, by decide, fun _ _ => by
    rw [show Memory.setByte (Memory.setByte [] 0 5) 0xFFF 6 = Memory.setByte (Memory.setByte [] 0xFFF 6) 0 5 by decide]⟩

theorem witness_FetchIsBigEndian :
    (atPC 0x0FFE).pc.toNat + 1 ≤ 0xFFF ∧
    ∃ t, State.resetWith (fun _ => 0x00) [0x12, 0x04] [] = .next t ∧ t.run = .running :=
  ⟨by decide, _, (State.resetWith_eq (fun _ => 0x00) [0x12, 0x04] []).2.2 (by simp) (by simp), rfl⟩

/-- `LD VA, 0x07` in the last word of memory. -/
theorem witness_StepRunsDecodedInstruction :
    let s := (atPC 0x0FFE).withFetchWord 16 0x6A07
    (Instr.ldVxNN 10 7).wf = true ∧ s.run = .running ∧ s.stopSample = false ∧ s.pc.toNat < 0x0FFF ∧
    decode (s.mem.byteAt s.pc.toNat ++ s.mem.byteAt (s.pc.toNat + 1)) = .ldVxNN 10 7 := by decide

theorem witness_FetchBounds :
    ((atPC 0x0FFF).run = .running ∧ (atPC 0x0FFF).stopSample = false ∧ 0x0FFF ≤ (atPC 0x0FFF).pc.toNat) ∧
    ((atPC 0x0FFE).run = .running ∧ (atPC 0x0FFE).stopSample = false ∧ (atPC 0x0FFE).pc.toNat < 0x0FFF) := by decide

theorem witness_StopHaltsBeforeFetch :
    ({ atPC 0xFFFF with stop := [true, false] } : State).run = .running ∧
    ({ atPC 0xFFFF with stop := [true, false] } : State).stopSample = true := by decide

theorem witness_HaltedStateHasNoStep :
    (State.reset.halt .addressingFault).run = .halted .addressingFault ∧
    step (State.reset.halt .addressingFault) = .fault (.halted .addressingFault) := ⟨rfl, rfl⟩

theorem witness_RunningStateAlwaysSteps : State.reset.run = .running := rfl

/-- A step that goes on running, and one that halts. -/
theorem witness_StepIsAtomic :
    (∃ t, step (State.reset.withFetchWord 16 0x6005) = .next t ∧ t.run = .running) ∧
    ∃ t, step State.reset = .next t ∧ t.run = .halted .unknownInstruction :=
  ⟨⟨_, rfl, rfl⟩, _, rfl, rfl⟩

/-- The states whose step halts, one for each row of the halt table; and one whose step does not halt. -/
theorem witness_HaltReasonsAreTheTable :
    StepHalts { State.reset with stop := [true] } .externalStop ∧ StepHalts (atPC 0x0FFF) .addressingFault ∧
    StepHalts State.reset .unknownInstruction ∧ StepHalts (State.reset.withFetchWord 16 0x00EE) .stackUnderflow ∧
    StepHalts ((deep 16).withFetchWord 16 0x2500) .addressingFault ∧
    StepHalts ((drawing [] 0xFF2 (screen []) []).withFetchWord 16 0xD00F) .addressingFault ∧
    ∃ t, step (State.reset.withFetchWord 16 0x1200) = .next t ∧ t.run = .running :=
  ⟨.externalStop rfl, .fetch rfl (by decide), .unknown rfl (by decide) 0x0000 (by decide),
   .ret rfl (by decide) (by decide) rfl, .call rfl (by decide) 0x500 (by decide) (by decide),
   .sprite rfl (by decide) 0 0 15 (by decide) (by decide), _, rfl, rfl⟩

/-- From PC 0x0FFE and from a PC whose fetch is out of bounds, with a halted machine. -/
theorem witness_PlacedWordRunsNext : State.reset.mem.wf ∧ ((atPC 0x0FFF).halt .addressingFault).mem.wf := by decide

theorem witness_LaterStopSamplesUnread :
    (∃ t, step { (State.reset.withFetchWord 16 0x6005) with stop := [false] } = .next t) ∧
    ∃ t, step { State.reset with stop := [true] } = .next t := ⟨⟨_, rfl⟩, _, rfl⟩

theorem witness_DrawDoneIsUnobserved :
    (∃ t, step (State.reset.withFetchWord 16 0xD001) = .next t) ∧ ∃ t, step (State.reset.withFetchWord 16 0x00E0) = .next t :=
  ⟨⟨_, rfl⟩, _, rfl⟩

theorem witness_FrameBufferIsUnobserved :
    (∃ t, exec (.drw 0 1 2) State.reset = .next t) ∧ (∃ t, exec (.addIVx 3) State.reset = .next t) ∧
    ∀ x y n, Instr.addIVx 3 ≠ .drw x y n := ⟨⟨_, rfl⟩, ⟨_, rfl⟩, fun _ _ _ h => by cases h⟩

theorem witness_ReturnPopsIntoPC : (deep 16).stack = 0x0202 :: List.replicate 15 0x0202 := by decide

theorem witness_CallPushesReturnAddress :
    (deep 11).stack.length < { Config.chip8 with stackDepth := 12 }.stackDepth ∧
    State.reset.stack.length < 16 ∧ (deep 15).stack.length < 16 := by decide

theorem witness_CallOnFullStackHalts :
    { Config.chip8 with stackDepth := 12 }.stackDepth ≤ (deep 12).stack.length ∧ 16 ≤ (deep 16).stack.length := by decide

/-- RET with and without an entry, CALL below and at the bound, the others. -/
theorem witness_ControlTransferFrame :
    (∃ t, exec .ret (deep 1) = .next t) ∧ (∃ t, exec .ret State.reset = .next t) ∧ (∃ t, exec (.call 0x206) (deep 15) = .next t) ∧
    (∃ t, exec (.call 0x206) (deep 16) = .next t) ∧ (∃ t, exec (.jp 0x203) State.reset = .next t) ∧
    (∃ t, exec (.se 0 0) State.reset = .next t) ∧ (∃ t, exec (.sne 0 0) State.reset = .next t) ∧
    (Instr.jp 0x203 ≠ .ret ∧ ∀ nnn, Instr.jp 0x203 ≠ .call nnn) :=
  ⟨⟨_, rfl⟩, ⟨_, rfl⟩, ⟨_, rfl⟩, ⟨_, rfl⟩, ⟨_, rfl⟩, ⟨_, rfl⟩, ⟨_, rfl⟩, by decide, fun _ h => by cases h⟩

/-- For LoadImmediateSetsRegister, AddImmediateWraps, CopyRegisterSetsDestination and DrawOfNoRows: a register other than the written one. -/
theorem witness_RegisterResults : (0 : VReg) ≠ 15 ∧ (15 : VReg) ≠ 0 := by decide

theorem witness_RegisterOperationFrame :
    (∃ t, exec (.ldVxNN 15 0xFF) State.reset = .next t) ∧ (∃ t, exec (.addVxNN 15 0xFF) State.reset = .next t) ∧
    (∃ t, exec (.ldVxVy 15 0) State.reset = .next t) ∧ (0 : VReg) ≠ 15 := ⟨⟨_, rfl⟩, ⟨_, rfl⟩, ⟨_, rfl⟩, by decide⟩

theorem witness_AddressOperationFrame :
    (∃ t, exec (.ldINNN 0xFFF) State.reset = .next t) ∧ ∃ t, exec (.addIVx 15) State.reset = .next t := ⟨⟨_, rfl⟩, _, rfl⟩

/-- No row, one row in the last byte, fifteen rows up to the last byte; with a pixel that collides and with none. -/
theorem witness_DrawComposesSprite :
    State.reset.spriteInBounds 0 ∧ ({ State.reset with i := 0xFFF } : State).spriteInBounds 1 ∧
    ({ State.reset with i := 0xFF1 } : State).spriteInBounds 15 ∧
    (let s := drawing [] 0x300 (screen [(0, 3)]) [0xFF]
     s.spriteInBounds 1 ∧ ((0 : Nat) < (1 : Nibble).toNat ∧ 3 < 8 ∧ (s.mem.byteAt (s.i.toNat + 0)).getLsbD (7 - 3) = true ∧
       s.fb.pixel (Fin.ofNat 32 ((s.readV 1).toNat + 0)) (Fin.ofNat 64 ((s.readV 0).toNat + 3)) = true)) ∧
    (let s := drawing [] 0x300 (screen [(0, 3)]) [0xEF]
     s.spriteInBounds 1 ∧ ¬ ∃ row bit, row < (1 : Nibble).toNat ∧ bit < 8 ∧
       (s.mem.byteAt (s.i.toNat + row)).getLsbD (7 - bit) = true ∧
       s.fb.pixel (Fin.ofNat 32 ((s.readV 1).toNat + row)) (Fin.ofNat 64 ((s.readV 0).toNat + bit)) = true) ∧
    ((∀ row bit, row < (1 : Nibble).toNat → bit < 8 →
      (5 : Fin 32) ≠ Fin.ofNat 32 ((State.reset.readV 1).toNat + row) ∨
        (5 : Fin 64) ≠ Fin.ofNat 64 ((State.reset.readV 0).toNat + bit)) ∧ (14 : VReg) ≠ 15) := by
  refine ⟨by decide, by decide, by decide, ⟨by decide, by decide⟩, ⟨by decide, ?_⟩, ?_, by decide⟩
  · rintro ⟨row, bit, hr, hb, h⟩
    obtain rfl : row = 0 := Nat.lt_one_iff.mp hr
    revert h
    have : ∀ b : Fin 8, ¬ ((Memory.byteAt (drawing [] 0x300 (screen [(0, 3)]) [0xEF]).mem
        ((drawing [] 0x300 (screen [(0, 3)]) [0xEF]).i.toNat + 0)).getLsbD (7 - b.val) = true ∧
      (drawing [] 0x300 (screen [(0, 3)]) [0xEF]).fb.pixel
        (Fin.ofNat 32 (((drawing [] 0x300 (screen [(0, 3)]) [0xEF]).readV 1).toNat + 0))
        (Fin.ofNat 64 (((drawing [] 0x300 (screen [(0, 3)]) [0xEF]).readV 0).toNat + b.val)) = true) := by decide
    exact this ⟨bit, hb⟩
  · intro row bit hr _
    obtain rfl : row = 0 := Nat.lt_one_iff.mp hr
    exact .inl (by decide)

/-- A draw that unsets a pixel, and a draw that unsets none. -/
theorem witness_CollisionIsSetToUnset :
    (let s := drawing [] 0x300 (screen [(0, 3)]) [0xFF]
     s.spriteInBounds 1 ∧ ∃ t, exec (.drw 0 1 1) s = .next t ∧ s.fb.pixel 0 3 = true ∧ t.fb.pixel 0 3 = false) ∧
    (let s := drawing [] 0x300 FrameBuffer.blank [0xFF]
     s.spriteInBounds 1 ∧ ∃ t, exec (.drw 0 1 1) s = .next t ∧
       ∀ py px, s.fb.pixel py px = true → t.fb.pixel py px = true) := by
  refine ⟨⟨by decide, _, rfl, by decide, by decide⟩, by decide, _, rfl, fun py px h => ?_⟩
  have : (FrameBuffer.blank : FrameBuffer 64 32).pixel py px = false := by simp [FrameBuffer.pixel, FrameBuffer.blank]
  exact absurd (h.symm.trans this) (by decide)

theorem witness_DrawOutOfBoundsHalts :
    (1 ≤ (2 : Nibble).toNat ∧ 0xFFF < (0xFFF : Addr).toNat + (2 : Nibble).toNat - 1) ∧
    (1 ≤ (15 : Nibble).toNat ∧ 0xFFF < (0xFF2 : Addr).toNat + (15 : Nibble).toNat - 1) := by decide

/-- A first draw that sets a pixel and does not collide, and one that only unsets one. -/
theorem witness_DrawTwiceRestores :
    ((0 : VReg) ≠ 15 ∧ (14 : VReg) ≠ 15) ∧
    (let s := drawing [] 0x300 FrameBuffer.blank [0x80]
     s.spriteInBounds 1 ∧ ∃ t, exec (.drw 0 1 1) s = .next t ∧ s.fb.pixel 0 0 = false ∧ t.fb.pixel 0 0 = true ∧ t.readV 15 = 0) ∧
    (let s := drawing [] 0x300 (FrameBuffer.blank.xorPixel 0 0 true) [0x80]
     s.spriteInBounds 1 ∧ ∃ t, exec (.drw 0 1 1) s = .next t ∧ t.readV 15 = 1 ∧
       ¬ ∃ py px, s.fb.pixel py px = false ∧ t.fb.pixel py px = true) := by
  refine ⟨by decide, ⟨by decide, _, rfl, by decide, by decide, by decide⟩, by decide, _, rfl, by decide, ?_⟩
  rintro ⟨py, px, -, h⟩
  have e := pixel_drawRows ⟨FrameBuffer.blank.xorPixel (0 : Fin 32) (0 : Fin 64) true, false⟩ 0 0 [0x80] (by decide) (by decide) py px
  refine absurd (e.symm.trans h) ?_
  rw [FrameBuffer.pixel_xorPixel, FrameBuffer.pixel_blank]
  have c : ∀ x, rowCovers (0x80 : Byte) 0 (List.range 8) x = decide ((0 : Fin 64) = x) := by decide
  have z : screenRow 32 0 = 0 := rfl
  simp only [spriteCovers, c, z, Bool.or_false, Bool.false_xor, Bool.and_true]
  by_cases hy : (0 : Fin 32) = py <;> by_cases hx : (0 : Fin 64) = px <;> simp [hy, hx]

theorem witness_DisplayFrame :
    (∃ t, exec .cls State.reset = .next t) ∧ (∃ t, exec (.drw 0 1 15) State.reset = .next t) ∧
    (∃ t, exec (.drw 0 1 2) { State.reset with i := 0xFFF } = .next t) ∧ ((14 : VReg) ≠ 15 ∧ Instr.cls = .cls) :=
  ⟨⟨_, rfl⟩, ⟨_, rfl⟩, ⟨_, rfl⟩, by decide⟩

theorem witness_UnknownHaltsAlone :
    let s := (atPC 0x0FFE).withFetchWord 16 0x5120
    s.run = .running ∧ s.stopSample = false ∧ s.pc.toNat < 0x0FFF ∧ supportedWord s.wordAtPC = false := by decide

theorem witness_NoInstructionWritesMemory :
    (∃ t, exec (.drw 0 1 2) State.reset = .next t) ∧ ∃ t, step State.reset = .next t := ⟨⟨_, rfl⟩, _, rfl⟩

theorem witness_StepChangesLittle :
    (∃ t, step ((deep 15).withFetchWord 16 0x2500) = .next t) ∧ (∃ t, step ((deep 15).withFetchWord 16 0x00EE) = .next t) ∧
    ∃ t, step (State.reset.withFetchWord 16 0xD001) = .next t := ⟨⟨_, rfl⟩, ⟨_, rfl⟩, _, rfl⟩

/-- A full stack of the largest return addresses at the largest PC, and a state at the last word of memory that steps. -/
theorem witness_StepKeepsInvariant :
    ({ atPC 0x1002 with stack := List.replicate 16 0x1000 } : State).Inv ∧
    ((deep 15).withFetchWord 16 0x2500).Inv ∧ ∃ t, step ((deep 15).withFetchWord 16 0x2500) = .next t :=
  have small : ∀ n, ∀ v : Word, v.toNat ≤ 0x1000 → ∀ a ∈ List.replicate n v, a.toNat ≤ 0x1000 :=
    fun _ _ hv a ha => by rw [List.eq_of_mem_replicate ha]; exact hv
  ⟨⟨by decide, by decide, by decide, small 16 0x1000 (by decide)⟩, ⟨by decide, by decide, by decide, small 15 0x0202 (by decide)⟩,
   _, rfl⟩

theorem witness_RunKeepsInvariant :
    (State.reset.withFetchWord 16 0x1200).Inv ∧
    ∃ t, Sys2Proof.core.run 2 (State.reset.withFetchWord 16 0x1200) = .next t :=
  ⟨⟨by decide, by decide, by decide, fun _ ha => nomatch ha⟩, _, rfl⟩

theorem witness_EvenPCUnlessOddTarget :
    (let s := (deep 1).withFetchWord 16 0x00EE
     s.Even ∧ Instr.evenTarget (decode s.wordAtPC) ∧ ∃ t, step s = .next t) ∧
    (0x203 : Addr).toNat % 2 = 1 ∧ (∃ t, exec (.jp 0x203) State.reset = .next t) ∧
    (∃ t, exec (.call 0x203) (deep 15) = .next t) ∧ (deep 15).stack.length < 16 :=
  ⟨⟨⟨by decide, fun a ha => by rw [List.eq_of_mem_replicate (n := 1) ha]; decide⟩, trivial, _, rfl⟩, by decide, ⟨_, rfl⟩, ⟨_, rfl⟩, by decide⟩

/-- The empty image, an image of two bytes, and the largest. -/
theorem witness_ResetLoadsImage :
    (([] : List Byte).length % 2 = 0 ∧ ([] : List Byte).length ≤ 3584) ∧
    (([0x12, 0x00] : List Byte).length % 2 = 0 ∧ ([0x12, 0x00] : List Byte).length ≤ 3584) ∧
    ((List.replicate 3584 (0xFF : Byte)).length % 2 = 0 ∧ (List.replicate 3584 (0xFF : Byte)).length ≤ 3584) := by
  simp only [List.length_replicate]; decide

theorem witness_ResetDiscardsAllState :
    (([0x12, 0x00] : List Byte).length % 2 = 0 ∧ ([0x12, 0x00] : List Byte).length ≤ 3584) ∧ (deep 16).stop = (deep 1).stop := by
  decide

/-- One byte over the largest image (odd), two bytes over (even), and an odd image that is not too large. -/
theorem witness_ResetRejectsBadImages :
    3584 < (List.replicate 3585 (0xFF : Byte)).length ∧ 3584 < (List.replicate 3586 (0xFF : Byte)).length ∧
    ((List.replicate 3583 (0xFF : Byte)).length ≤ 3584 ∧ (List.replicate 3583 (0xFF : Byte)).length % 2 = 1) := by
  simp only [List.length_replicate]; decide

theorem witness_EveryResetMeetsInvariant :
    (∃ t, State.hostReset (fun _ => 0x5A) [0x12, 0x00] (deep 16) = .next t) ∧
    ∃ t, State.hostReset (fun _ => 0x5A) (List.replicate 3585 0xFF) (deep 16) = .next t :=
  ⟨⟨_, (State.resetWith_eq (fun _ => 0x5A) [0x12, 0x00] (deep 16).stop).2.2 (by simp) (by simp)⟩,
   _, (State.resetWith_eq (fun _ => 0x5A) _ (deep 16).stop).1 (by rw [List.length_replicate]; omega)⟩

end Sys2Proof.Tests
end

section
/-!
PROOFS. The architectural state (spec/10_state.md): registers and call stack. What every instruction does to the call stack is
said once, in `exec_stack_cases`.
-/
namespace Sys2Proof.Machine

/-! ## Registers (R21, R24) -/

/-- Settles O8: the read-after-write rule of the register bank, once for the register written and once for another. -/
theorem registerWriteIsModulo256 : Obligations.RegisterWriteIsModulo256 := by
  intro s x n
  refine ⟨?_, fun y hy => s.readV_writeV_of_ne n hy.symm, fun y => Nat.le_of_lt_succ (s.readV y).isLt⟩
  rw [State.readV_writeV_self, BitVec.toNat_ofNat]

/-- Settles O9: the write narrows to 12 bits, and I and the bank are separate fields of the state. -/
theorem addressRegisterWriteIsModulo4096 : Obligations.AddressRegisterWriteIsModulo4096 := by
  intro s n
  refine ⟨?_, Nat.le_of_lt_succ s.i.isLt, State.readV_congr (s.writeI_v n), s.writeV_i⟩
  rw [State.writeI_i, BitVec.toNat_ofNat]

/-! ## Call stack (R31, R32, R33) -/

/-- A return with nothing to return to halts (R32, R130). -/
theorem exec_ret_of_nil {s : State} (h : s.stack = []) : exec .ret s = .next (s.halt .stackUnderflow) := by
  rw [exec, execRet, State.pop_of_nil s h, Except.map, conclude_error]

/-- A return resumes at the top entry and removes it (R32, R130). -/
theorem exec_ret_of_cons {s : State} {a : Word} {rest : List Word} (h : s.stack = a :: rest) :
    exec .ret s = .next { s with pc := a, stack := rest } := by
  rw [exec, execRet, State.pop_of_cons s h, Except.map, conclude_ok]
  simp only [State.writePC, BitVec.ofNat_toNat, BitVec.setWidth_eq]

/-- What an instruction can do to the call stack: nothing, CALL's push of one entry, or RET's pop of one entry. -/
theorem exec_stack_cases {i : Instr} {s t : State} (h : exec i s = .next t) :
    t.stack = s.stack ∨
    (∃ nnn, i = .call nnn ∧ t.stack = (s.pc + 2) :: s.stack) ∨
    (i = .ret ∧ ∃ a, s.stack = a :: t.stack) := by
  cases i with
  | ret =>
    cases hs : s.stack with
    | nil =>
      rw [exec_ret_of_nil hs] at h
      cases h
      exact .inl hs
    | cons a rest =>
      rw [exec_ret_of_cons hs] at h
      cases h
      exact .inr (.inr ⟨rfl, a, rfl⟩)
  | call nnn =>
    rw [exec, execCall, callWithin_eq] at h
    split at h
    · cases h
      exact .inr (.inl ⟨nnn, rfl, rfl⟩)
    · cases h
      exact .inl rfl
  | drw x y n =>
    rw [exec, execDrw_eq] at h
    split at h
    · cases h
      exact .inl (s.drawSprite_stack _ _ _)
    · cases h
      exact .inl rfl
  | se | sne =>
    cases h
    left
    split <;> rfl
  | cls | jp | ldVxNN | addVxNN | ldVxVy | ldINNN | addIVx | unknown =>
    cases h
    exact .inl rfl

/-- An instruction that shortens the call stack is RET, and it takes one entry. -/
theorem ret_of_exec_shortens_stack {i : Instr} {s t : State} (h : exec i s = .next t)
    (hlt : t.stack.length < s.stack.length) : i = .ret ∧ s.stack.length = t.stack.length + 1 := by
  obtain hkept | ⟨nnn, -, hpush⟩ | ⟨hi, a, hpop⟩ := exec_stack_cases h
  · rw [hkept] at hlt
    exact absurd hlt (Nat.lt_irrefl _)
  · rw [hpush, List.length_cons] at hlt
    omega
  · exact ⟨hi, by rw [hpop, List.length_cons]⟩

/-- Settles O12: the two cases of the pop, and what every instruction does to the call stack. -/
theorem popTakesTheTop : Obligations.PopTakesTheTop :=
  ⟨fun s h => ⟨s.pop_of_nil h, exec_ret_of_nil h⟩,
   fun s _ _ h => s.pop_of_cons h,
   fun _ _ _ h hlt => ret_of_exec_shortens_stack h hlt⟩

end Sys2Proof.Machine
end

section
/-!
PROOFS. Memory and fetch (spec/20_memory.md): the byte order of the fetched word, and the first word of an image that loads.
-/
namespace Sys2Proof.Machine

/-- A reset that leaves the machine running has loaded an image that fits (R242): the other outcomes of a reset halt or are
refused. -/
theorem State.loaded_of_resetWith_running {init : Nat → Byte} {image : List Byte} {stop : List Bool} {t : State}
    (h : State.resetWith init image stop = .next t) (hrun : t.run = .running) :
    image.length ≤ 3584 ∧ t = { State.reset with mem := loadedMemory init image, stop := stop } := by
  obtain ⟨tooLarge, oddLength, loads⟩ := State.resetWith_eq init image stop
  by_cases hlen : 3584 < image.length
  · rw [tooLarge hlen] at h
    cases h
    exact nomatch hrun
  · obtain heven | hodd := Nat.mod_two_eq_zero_or_one image.length
    · rw [loads hlen heven] at h
      cases h
      exact ⟨Nat.not_lt.mp hlen, rfl⟩
    · rw [oddLength hlen hodd] at h
      exact nomatch h

/-- An image that loads lies in memory in order from the entry address 0x200 up (R242). -/
theorem byteAt_loadedMemory_image (init : Nat → Byte) {image : List Byte} (h : image.length ≤ 3584) {k : Nat}
    (hk : k < image.length) : (loadedMemory init image).byteAt (0x200 + k) = image[k] := by
  rw [byteAt_loadedMemory init image h (by omega), if_pos (by omega), Nat.add_sub_cancel_left, List.getD_eq_getElem _ _ hk]

/-- The first fetch after an image load reads the image's first two bytes, the first of them in the high half (R55, R241). -/
theorem fetch_of_resetWith_running {init : Nat → Byte} {hi lo : Byte} {rest : List Byte} {stop : List Bool} {t : State}
    (h : State.resetWith init (hi :: lo :: rest) stop = .next t) (hrun : t.run = .running) : t.fetch = .ok (hi ++ lo) := by
  obtain ⟨hlen, ht⟩ := State.loaded_of_resetWith_running h hrun
  have hhi : (loadedMemory init (hi :: lo :: rest)).byteAt 0x200 = hi :=
    byteAt_loadedMemory_image init hlen (k := 0) (by simp)
  have hlo : (loadedMemory init (hi :: lo :: rest)).byteAt (0x200 + 1) = lo :=
    byteAt_loadedMemory_image init hlen (k := 1) (by simp)
  have hpc : t.pc.toNat = 0x200 := by rw [ht]; rfl
  have hmem : t.mem = loadedMemory init (hi :: lo :: rest) := by rw [ht]
  rw [State.fetch_ok t (by omega), hpc, hmem, hhi, hlo]

/-- Settles O16: in bounds the fetched word is the byte at PC appended to the one above it, so its halves are those bytes. -/
theorem fetchIsBigEndian : Obligations.FetchIsBigEndian :=
  ⟨fun s h => ⟨_, s.fetch_ok (by omega), BitVec.extractLsb'_append_eq_left, BitVec.extractLsb'_append_eq_right⟩,
   fun _ _ _ _ _ _ h hrun => fetch_of_resetWith_running h hrun⟩

end Sys2Proof.Machine
end

section
/-!
PROOFS. Reset and image load (spec/70_reset_and_hazards.md): what the load leaves unwritten, and the reset with an image that loads.
-/
namespace Sys2Proof.Machine

/-- An image load writes no cell of the address space below the entry address 0x200 or past the image's last byte (R242). -/
theorem byteAt_loadedMemory_outside (init : Nat → Byte) {image : List Byte} (h : image.length ≤ 3584) {a : Nat} (ha : a ≤ 0xFFF)
    (hout : a < 0x200 ∨ 0x200 + image.length ≤ a) : (loadedMemory init image).byteAt a = init a := by
  rw [byteAt_loadedMemory init image h (by omega), if_neg (by omega)]

/-- A reset with an image of even length that fits loads it, and the rest of the state is at its reset value (R240, R242). -/
theorem State.resetWith_of_loads (init : Nat → Byte) {image : List Byte} (stop : List Bool) (heven : image.length % 2 = 0)
    (hlen : image.length ≤ 3584) :
    State.resetWith init image stop = .next { State.reset with mem := loadedMemory init image, stop := stop } := by
  obtain ⟨-, -, loads⟩ := State.resetWith_eq init image stop
  exact loads (Nat.not_lt.mpr hlen) heven

/-- Settles O57: the reset loads the image, whose cells and the cells outside it are read by one rule each; run state and PC are
those of the reset state. -/
theorem resetLoadsImage : Obligations.ResetLoadsImage := by
  intro init image stop heven hlen
  refine ⟨_, State.resetWith_of_loads init stop heven hlen, fun k hk => ?_,
    fun a ha hout => byteAt_loadedMemory_outside init hlen ha hout, rfl, rfl⟩
  rw [List.getD_eq_getElem _ _ hk]
  exact byteAt_loadedMemory_image init hlen hk

end Sys2Proof.Machine
end

section
/-!
PROOFS. The encoding (spec/30_encoding.md): the row a word matches decides what it decodes to, and the formats of R85 put together
exactly the fields that the rows take apart.
-/
namespace Sys2Proof

/-! ## The rows of the map (R90) -/

/-- Rows of the map that match one word are one row. -/
theorem row_eq_of_rowMatches {r r' : OpcodeRow} {w : Word} (hr : r ∈ opcodeTable) (hr' : r' ∈ opcodeTable)
    (h : rowMatches r w = true) (h' : rowMatches r' w = true) : r' = r :=
  row_eq_of_mnemonic_eq hr' hr (mnemonic_eq_of_rows_agree r' hr' r hr (rows_agree h' h))

theorem decode_of_rowMatches {r : OpcodeRow} {w : Word} (hr : r ∈ opcodeTable) (h : rowMatches r w = true) :
    decode w = r.build w := by
  obtain ⟨r', hr', h', hd⟩ | ⟨hnone, -⟩ := decodeWith_cases opcodeTable w
  · rw [decode, hd, row_eq_of_rowMatches hr hr' h h']
  · exact absurd h (by rw [hnone r hr]; decide)

theorem decode_of_no_row {w : Word} (h : ∀ r ∈ opcodeTable, rowMatches r w = false) : decode w = .unknown w := by
  obtain ⟨r, hr, hm, -⟩ | ⟨-, hd⟩ := decodeWith_cases opcodeTable w
  · exact absurd hm (by rw [h r hr]; decide)
  · exact hd

/-- Settles O4: two rows that match one word agree on the bits both test, and no two rows of the map do. -/
theorem matchingRowDecodes : Obligations.MatchingRowDecodes :=
  fun _ hr _ h => ⟨decode_of_rowMatches hr h, fun _ hr' h' => congrArg _ (row_eq_of_rowMatches hr hr' h h')⟩

/-- Settles O1: each word is evaluated in the map. -/
theorem decodeOfSpecWords : Obligations.DecodeOfSpecWords := by
  unfold Obligations.DecodeOfSpecWords
  decide

/-! ## Decoding an encoded instruction (R85, R102) -/

theorem ownRow (i : Instr) : Laws.OwnRow.Statement i := by
  cases i with
  | cls => exact Laws.OwnRow.cls
  | ret => exact Laws.OwnRow.ret
  | jp nnn => exact Laws.OwnRow.jp nnn
  | call nnn => exact Laws.OwnRow.call nnn
  | se x nn => exact Laws.OwnRow.se x nn
  | sne x nn => exact Laws.OwnRow.sne x nn
  | ldVxNN x nn => exact Laws.OwnRow.ldVxNN x nn
  | addVxNN x nn => exact Laws.OwnRow.addVxNN x nn
  | ldVxVy x y => exact Laws.OwnRow.ldVxVy x y
  | ldINNN nnn => exact Laws.OwnRow.ldINNN nnn
  | drw x y n => exact Laws.OwnRow.drw x y n
  | addIVx x => exact Laws.OwnRow.addIVx x
  | unknown w => exact Laws.OwnRow.unknown w

theorem decode_encode {i : Instr} (h : i.wf = true) : decode (encode i) = i := by
  obtain ⟨r, hr, hm, hb⟩ | ⟨hi, hnone⟩ := ownRow i h
  · rw [decode_of_rowMatches hr hm, hb]
  · rw [decode_of_no_row hnone, ← hi]

/-- Settles O2: the word of an instruction matches the instruction's own row, which reads the operands back, or no row. -/
theorem decodeOfEncode : Obligations.DecodeOfEncode := fun _ h => decode_encode h

/-! ## Encoding a decoded word -/

theorem formatA_of_family {w : Word} (fam : Nibble) (h : w.toNat / 4096 = fam.toNat) : formatA fam (fieldNNN w) = w := by
  apply BitVec.eq_of_toNat_eq
  rw [toNat_formatA, toNat_fieldNNN]
  omega

theorem formatXI_of_family {w : Word} (fam : Nibble) (nn : Byte) (h : w.toNat / 4096 = fam.toNat)
    (hnn : w.toNat % 256 = nn.toNat) : formatXI fam (fieldX w) nn = w := by
  apply BitVec.eq_of_toNat_eq
  rw [toNat_formatXI, val_fieldX]
  omega

theorem formatXYN_of_family {w : Word} (fam n : Nibble) (h : w.toNat / 4096 = fam.toNat)
    (hn : w.toNat % 16 = n.toNat) : formatXYN fam (fieldX w) (fieldY w) n = w := by
  apply BitVec.eq_of_toNat_eq
  rw [toNat_formatXYN, val_fieldX, val_fieldY]
  omega

/-- Whatever a word decodes to is well-formed and has that word (R90, R100). -/
theorem encode_decode (w : Word) : encode (decode w) = w ∧ (decode w).wf = true := by
  obtain ⟨h, hd⟩ | ⟨h, hd⟩ | ⟨h, hd⟩ | ⟨h, hd⟩ | ⟨h, hd⟩ | ⟨h, hd⟩ | ⟨h, hd⟩ | ⟨h, hd⟩ | ⟨h, h0, hd⟩ | ⟨h, hd⟩ | ⟨h, hd⟩ |
    ⟨h, h0, hd⟩ | ⟨h, hd⟩ := decode_cases w <;> rw [hd]
  · exact ⟨BitVec.eq_of_toNat_eq h.symm, rfl⟩
  · exact ⟨BitVec.eq_of_toNat_eq h.symm, rfl⟩
  · exact ⟨formatA_of_family 0x1 h, rfl⟩
  · exact ⟨formatA_of_family 0x2 h, rfl⟩
  · exact ⟨formatXI_of_family 0x3 _ h (toNat_fieldNN w).symm, rfl⟩
  · exact ⟨formatXI_of_family 0x4 _ h (toNat_fieldNN w).symm, rfl⟩
  · exact ⟨formatXI_of_family 0x6 _ h (toNat_fieldNN w).symm, rfl⟩
  · exact ⟨formatXI_of_family 0x7 _ h (toNat_fieldNN w).symm, rfl⟩
  · exact ⟨formatXYN_of_family 0x8 0x0 h h0, rfl⟩
  · exact ⟨formatA_of_family 0xA h, rfl⟩
  · exact ⟨formatXYN_of_family 0xD _ h (toNat_fieldN w).symm, rfl⟩
  · exact ⟨formatXI_of_family 0xF 0x1E h h0, rfl⟩
  · exact ⟨rfl, by rw [Instr.wf, h]; rfl⟩

/-- Settles O3: each row's format puts the fields the row reads back at their places. -/
theorem encodeOfDecode : Obligations.EncodeOfDecode := encode_decode

/-- Settles O6: the encoder tells a word from what it decodes to. -/
theorem decodeDistinguishesWords : Obligations.DecodeDistinguishesWords := by
  refine fun w w' => ⟨fun h => ?_, congrArg decode⟩
  rw [← (encode_decode w).1, h, (encode_decode w').1]

/-! ## Unknown words (R91, R100) -/

theorem decode_of_unsupported {w : Word} (h : supportedWord w = false) : decode w = .unknown w :=
  decode_of_no_row (Laws.OwnRow.no_row_of_unsupported h)

theorem unsupported_of_decode {w w' : Word} (h : decode w = .unknown w') : supportedWord w = false := by
  obtain ⟨henc, hwf⟩ := encode_decode w
  rw [h] at henc hwf
  have hw : w' = w := henc
  simpa only [Instr.wf, hw, Bool.not_eq_true'] using hwf

/-- Settles O5: a word outside the family table matches no row, and an Unknown term that is decoded is well-formed. -/
theorem unknownOutsideFamilyTable : Obligations.UnknownOutsideFamilyTable :=
  fun w => ⟨⟨fun ⟨_, h⟩ => unsupported_of_decode h, fun h => ⟨w, decode_of_unsupported h⟩⟩, decode_of_unsupported⟩

/-! ## The byte stream (R55, R80, R81) -/

theorem decodeBytes_cons_cons (hi lo : Byte) (rest : List Byte) :
    decodeBytes (hi :: lo :: rest) = .ok (decode (hi ++ lo), rest) := by
  rw [decodeBytes, Machine.bigEndian_pair]

/-- A word is its two bytes, the high one first. -/
theorem exists_bytes_of_word (w : Word) : ∃ hi lo : Byte, w = hi ++ lo := by
  refine ⟨w.extractLsb' 8 8, w.extractLsb' 0 8, BitVec.eq_of_toNat_eq ?_⟩
  have hw := w.isLt
  rw [toNat_append_eq, BitVec.extractLsb'_toNat, BitVec.extractLsb'_toNat, Nat.shiftRight_eq_div_pow, Nat.shiftRight_zero]
  omega

theorem decodeBytes_encodeBytes {i : Instr} (rest : List Byte) (h : i.wf = true) :
    decodeBytes (encodeBytes i ++ rest) = .ok (i, rest) := by
  obtain ⟨hi, lo, hw⟩ := exists_bytes_of_word (encode i)
  have hb : encodeBytes i = [hi, lo] := by rw [encodeBytes, hw, Machine.bigEndianBytes_append]
  rw [hb, List.cons_append, List.cons_append, List.nil_append, decodeBytes_cons_cons, ← hw, decode_encode h]

/-- Settles O7: the first byte of two is the high one, for the decoder and for the encoder. -/
theorem decodeBytesHighByteFirst : Obligations.DecodeBytesHighByteFirst :=
  ⟨decodeBytes_cons_cons, rfl, fun _ => rfl, fun _ rest h => decodeBytes_encodeBytes rest h⟩

end Sys2Proof
end

section
/-!
PROOFS. The meaning of each instruction as one equation (spec/41_control_transfer.md to spec/45_unknown.md), then said once for all
of them: an instruction completes in the state of `Completes`, or halts for a reason of `ExecHalts` and changes nothing else.
-/
namespace Sys2Proof.Machine

/-! ## Program counter and call stack (R27, R31) -/

/-- Settles O10: the write narrows to 16 bits, and adding before it is adding modulo the width. -/
theorem programCounterArithmetic : Obligations.ProgramCounterArithmetic := by
  refine fun s n => ⟨?_, s.advance_eq, s.skip_eq⟩
  rw [State.writePC_pc, BitVec.toNat_ofNat]

/-- Settles O11: the two branches of the push, at any depth bound and at 16. -/
theorem pushIsBounded : Obligations.PushIsBounded :=
  fun s a => ⟨fun _ => s.pushWithin_of_lt a, fun _ => s.pushWithin_of_full a, s.push_of_lt a, s.push_of_full a⟩

/-! ## Control transfer (41_control_transfer.md) -/

/-- Settles O28: RET pops the top entry into PC. -/
theorem returnPopsIntoPC : Obligations.ReturnPopsIntoPC := fun _ _ _ h => exec_ret_of_cons h

theorem exec_jp (nnn : Addr) (s : State) : exec (.jp nnn) s = .next { s with pc := nnn.setWidth 16 } := by
  rw [exec, execJp, conclude_ok, State.writePC, embedded, BitVec.ofNat_toNat]

/-- Settles O29: the 12-bit address is written to PC unchanged. -/
theorem jumpSetsPC : Obligations.JumpSetsPC := exec_jp

theorem callWithin_of_lt {depth : Nat} (nnn : Addr) {s : State} (h : s.stack.length < depth) :
    callWithin depth nnn s = .next { s with pc := nnn.setWidth 16, stack := (s.pc + 2) :: s.stack } := by
  rw [callWithin_eq, if_pos h]

theorem callWithin_of_full {depth : Nat} (nnn : Addr) {s : State} (h : depth ≤ s.stack.length) :
    callWithin depth nnn s = .next (s.halt .addressingFault) := by
  rw [callWithin_eq, if_neg (Nat.not_lt.mpr h)]

theorem exec_call_of_lt (nnn : Addr) {s : State} (h : s.stack.length < 16) :
    exec (.call nnn) s = .next { s with pc := nnn.setWidth 16, stack := (s.pc + 2) :: s.stack } :=
  callWithin_of_lt nnn h

theorem exec_call_of_full (nnn : Addr) {s : State} (h : 16 ≤ s.stack.length) :
    exec (.call nnn) s = .next (s.halt .addressingFault) :=
  callWithin_of_full nnn h

/-- Settles O30: CALL below the bound is one rule at every depth, and `exec` is that rule at 16. -/
theorem callPushesReturnAddress : Obligations.CallPushesReturnAddress :=
  fun nnn _ => ⟨fun _ => callWithin_of_lt nnn, exec_call_of_lt nnn⟩

/-- Settles O31: CALL at the bound is one rule at every depth, and `exec` is that rule at 16. -/
theorem callOnFullStackHalts : Obligations.CallOnFullStackHalts :=
  fun nnn _ => ⟨fun _ => callWithin_of_full nnn, exec_call_of_full nnn⟩

theorem exec_se (x : VReg) (nn : Byte) (s : State) :
    exec (.se x nn) s = .next { s with pc := s.pc + if (s.readV x).toNat = nn.toNat then 4 else 2 } := by
  rw [exec, execSe, conclude_ok, State.skip_eq, State.advance_eq]
  by_cases h : s.readV x = nn
  · rw [if_pos ((s.regEquals_iff x nn).mpr h), if_pos (congrArg _ h)]
  · rw [if_neg (mt (s.regEquals_iff x nn).mp h), if_neg (mt BitVec.eq_of_toNat_eq h)]

/-- Settles O32: equality of the two bytes is equality of their values. -/
theorem skipIfEqualAdvances : Obligations.SkipIfEqualAdvances := exec_se

theorem exec_sne (x : VReg) (nn : Byte) (s : State) :
    exec (.sne x nn) s = .next { s with pc := s.pc + if (s.readV x).toNat ≠ nn.toNat then 4 else 2 } := by
  rw [exec, execSne, conclude_ok, State.skip_eq, State.advance_eq]
  by_cases h : s.readV x = nn
  · rw [if_pos ((s.regEquals_iff x nn).mpr h), if_neg (not_not_intro (congrArg _ h))]
  · rw [if_neg (mt (s.regEquals_iff x nn).mp h), if_pos (mt BitVec.eq_of_toNat_eq h)]

/-- Settles O33: SNE takes the branches of SE the other way round. -/
theorem skipIfNotEqualAdvances : Obligations.SkipIfNotEqualAdvances := exec_sne

/-! ## Register operations (42_register_ops.md) -/

theorem exec_ldVxNN (x : VReg) (nn : Byte) (s : State) :
    exec (.ldVxNN x nn) s = .next { s with v := s.v.set x nn, pc := s.pc + 2 } := by
  rw [exec, execLdVxNN, conclude_ok, State.writeV_advance_eq, immediate, BitVec.ofNat_toNat, BitVec.setWidth_eq]

theorem exec_addVxNN (x : VReg) (nn : Byte) (s : State) :
    exec (.addVxNN x nn) s = .next { s with v := s.v.set x (s.readV x + nn), pc := s.pc + 2 } := by
  rw [exec, execAddVxNN, conclude_ok, State.writeV_advance_eq, State.value, immediate, ofNat_toNat_add, BitVec.ofNat_toNat,
    BitVec.setWidth_eq]

theorem exec_ldVxVy (x y : VReg) (s : State) :
    exec (.ldVxVy x y) s = .next { s with v := s.v.set x (s.readV y), pc := s.pc + 2 } := by
  rw [exec, execLdVxVy, conclude_ok, State.writeV_advance_eq, State.value, BitVec.ofNat_toNat, BitVec.setWidth_eq]

/-- What a register reads after one register of the bank has been set. -/
theorem State.readV_set_v {s t : State} {x : VReg} {b : Byte} (h : t.v = s.v.set x b) (z : VReg) :
    t.readV z = if z = x then b else s.readV z := by
  simp only [State.readV, h, Fin.getElem_fin, Vector.getElem_set, Fin.ext_iff]
  exact if_congr eq_comm rfl rfl

theorem State.readV_set_v_self {s t : State} {x : VReg} {b : Byte} (h : t.v = s.v.set x b) : t.readV x = b := by
  rw [State.readV_set_v h, if_pos rfl]

theorem State.readV_set_v_of_ne {s t : State} {x : VReg} {b : Byte} (h : t.v = s.v.set x b) (z : VReg) (hz : z ≠ x) :
    t.readV z = s.readV z := by
  rw [State.readV_set_v h, if_neg hz]

/-- Settles O35: the register written reads as the immediate, every other as before. -/
theorem loadImmediateSetsRegister : Obligations.LoadImmediateSetsRegister :=
  fun x nn s => ⟨_, exec_ldVxNN x nn s, State.readV_set_v_self rfl, State.readV_set_v_of_ne rfl, rfl⟩

/-- Settles O36: the 8-bit sum is the sum of the values modulo 256. -/
theorem addImmediateWraps : Obligations.AddImmediateWraps := by
  refine fun x nn s => ⟨_, exec_addVxNN x nn s, ?_, State.readV_set_v_of_ne rfl, rfl⟩
  rw [State.readV_set_v_self rfl, BitVec.toNat_add]

/-- Settles O37: the register written reads as the source, every other as before. -/
theorem copyRegisterSetsDestination : Obligations.CopyRegisterSetsDestination :=
  fun x y s => ⟨_, exec_ldVxVy x y s, State.readV_set_v_self rfl, State.readV_set_v_of_ne rfl, rfl⟩

/-! ## Address register (43_address_register.md) -/

theorem exec_ldINNN (nnn : Addr) (s : State) : exec (.ldINNN nnn) s = .next { s with i := nnn, pc := s.pc + 2 } := by
  rw [exec, execLdINNN, conclude_ok, State.advance_eq, State.writeI, embedded, BitVec.ofNat_toNat, BitVec.setWidth_eq]

/-- Settles O39: the 12-bit address is written to I unchanged. -/
theorem loadAddressRegister : Obligations.LoadAddressRegister := exec_ldINNN

theorem exec_addIVx (x : VReg) (s : State) :
    exec (.addIVx x) s = .next { s with i := s.i + (s.readV x).setWidth 12, pc := s.pc + 2 } := by
  rw [exec, execAddIVx, conclude_ok, State.advance_eq, State.writeI, State.base, State.value, ofNat_toNat_add,
    BitVec.ofNat_toNat]

/-- Settles O40: the 12-bit sum is the sum of the values modulo 4096. -/
theorem addToAddressRegisterWraps : Obligations.AddToAddressRegisterWraps := by
  refine fun x s => ⟨_, exec_addIVx x s, ?_, rfl⟩
  have := (s.readV x).isLt
  rw [BitVec.toNat_add, BitVec.toNat_setWidth]
  omega

/-! ## Display and Unknown (44_display.md, 45_unknown.md) -/

theorem exec_cls (s : State) : exec .cls s = .next { s with fb := FrameBuffer.blank, pc := s.pc + 2 } := by
  rw [exec, execCls, conclude_ok, State.advance_eq]

/-- Settles O42: the blank screen has no pixel set. -/
theorem clearScreenClearsEveryPixel : Obligations.ClearScreenClearsEveryPixel :=
  fun s => ⟨_, exec_cls s, FrameBuffer.pixel_blank, rfl⟩

/-- The state a draw of `n` rows completes in: the sprite bytes from I up, drawn at (V[x], V[y]) (R171). -/
def State.drawn (s : State) (x y : VReg) (n : Nibble) : State :=
  s.drawSprite (s.readV x).toNat (s.readV y).toNat (s.mem.bytesFrom s.i.toNat n.toNat)

theorem State.spriteInBounds_iff (s : State) (n : Nibble) :
    s.spriteInBounds n ↔ n.toNat = 0 ∨ s.i.toNat + n.toNat - 1 ≤ 0xFFF :=
  or_congr_left BitVec.toNat_inj.symm

theorem exec_drw_of_inBounds (x y : VReg) {n : Nibble} {s : State} (h : s.spriteInBounds n) :
    exec (.drw x y n) s = .next (s.drawn x y n) := by
  rw [exec, execDrw_eq, if_pos ((s.spriteInBounds_iff n).mp h), State.drawn]

theorem exec_drw_of_outOfBounds (x y : VReg) {n : Nibble} {s : State} (h : ¬ s.spriteInBounds n) :
    exec (.drw x y n) s = .next (s.halt .addressingFault) := by
  rw [exec, execDrw_eq, if_neg (mt (s.spriteInBounds_iff n).mpr h)]

/-- Settles O45: the sprite's bounds are tested before any write. -/
theorem drawOutOfBoundsHalts : Obligations.DrawOutOfBoundsHalts := by
  refine fun x y n s hn hout => exec_drw_of_outOfBounds x y (mt (s.spriteInBounds_iff n).mp ?_)
  omega

theorem State.drawn_readV_of_ne (s : State) (x y : VReg) (n : Nibble) {z : VReg} (hz : z ≠ 15) :
    (s.drawn x y n).readV z = s.readV z := by
  rw [State.drawn, State.drawSprite_readV, if_neg hz]

/-- Settles O46: a sprite of no rows covers no pixel, so it collides with none. -/
theorem drawOfNoRows : Obligations.DrawOfNoRows := by
  refine fun x y s => ⟨_, exec_drw_of_inBounds x y (.inl rfl), ?_, fun z => s.drawn_readV_of_ne x y 0, ?_⟩
  · rw [State.drawn, State.drawSprite_readV, if_pos rfl]
    rfl
  · exact State.drawSprite_eq s _ _ _

theorem exec_unknown (w : Word) (s : State) : exec (.unknown w) s = .next (s.halt .unknownInstruction) := rfl

/-! ## Every instruction at once -/

/-- The state an instruction completes in, where it does: one row per instruction that can complete. -/
inductive Completes (s : State) : Instr → State → Prop
  | cls : Completes s .cls { s with fb := FrameBuffer.blank, pc := s.pc + 2 }
  | ret (a : Word) (rest : List Word) (h : s.stack = a :: rest) : Completes s .ret { s with pc := a, stack := rest }
  | jp (nnn : Addr) : Completes s (.jp nnn) { s with pc := nnn.setWidth 16 }
  | call (nnn : Addr) (h : s.stack.length < 16) :
      Completes s (.call nnn) { s with pc := nnn.setWidth 16, stack := (s.pc + 2) :: s.stack }
  | se (x : VReg) (nn : Byte) :
      Completes s (.se x nn) { s with pc := s.pc + if (s.readV x).toNat = nn.toNat then 4 else 2 }
  | sne (x : VReg) (nn : Byte) :
      Completes s (.sne x nn) { s with pc := s.pc + if (s.readV x).toNat ≠ nn.toNat then 4 else 2 }
  | ldVxNN (x : VReg) (nn : Byte) : Completes s (.ldVxNN x nn) { s with v := s.v.set x nn, pc := s.pc + 2 }
  | addVxNN (x : VReg) (nn : Byte) :
      Completes s (.addVxNN x nn) { s with v := s.v.set x (s.readV x + nn), pc := s.pc + 2 }
  | ldVxVy (x y : VReg) : Completes s (.ldVxVy x y) { s with v := s.v.set x (s.readV y), pc := s.pc + 2 }
  | ldINNN (nnn : Addr) : Completes s (.ldINNN nnn) { s with i := nnn, pc := s.pc + 2 }
  | addIVx (x : VReg) : Completes s (.addIVx x) { s with i := s.i + (s.readV x).setWidth 12, pc := s.pc + 2 }
  | drw (x y : VReg) (n : Nibble) (h : s.spriteInBounds n) : Completes s (.drw x y n) (s.drawn x y n)

/-- Why an instruction halts, where it does: the rows of R200 that an instruction raises. -/
inductive ExecHalts (s : State) : Instr → HaltReason → Prop
  | unknown (w : Word) : ExecHalts s (.unknown w) .unknownInstruction
  | ret (empty : s.stack = []) : ExecHalts s .ret .stackUnderflow
  | call (nnn : Addr) (full : 16 ≤ s.stack.length) : ExecHalts s (.call nnn) .addressingFault
  | sprite (x y : VReg) (n : Nibble) (out : ¬ s.spriteInBounds n) : ExecHalts s (.drw x y n) .addressingFault

theorem exec_of_completes {i : Instr} {s t : State} (h : Completes s i t) : exec i s = .next t := by
  cases h with
  | cls => exact exec_cls s
  | ret a rest h => exact exec_ret_of_cons h
  | jp nnn => exact exec_jp nnn s
  | call nnn h => exact exec_call_of_lt nnn h
  | se x nn => exact exec_se x nn s
  | sne x nn => exact exec_sne x nn s
  | ldVxNN x nn => exact exec_ldVxNN x nn s
  | addVxNN x nn => exact exec_addVxNN x nn s
  | ldVxVy x y => exact exec_ldVxVy x y s
  | ldINNN nnn => exact exec_ldINNN nnn s
  | addIVx x => exact exec_addIVx x s
  | drw x y n h => exact exec_drw_of_inBounds x y h

theorem exec_of_execHalts {i : Instr} {s : State} {r : HaltReason} (h : ExecHalts s i r) : exec i s = .next (s.halt r) := by
  cases h with
  | unknown w => exact exec_unknown w s
  | ret empty => exact exec_ret_of_nil empty
  | call nnn full => exact exec_call_of_full nnn full
  | sprite x y n out => exact exec_drw_of_outOfBounds x y out

/-- No instruction is without an outcome (R115, R229). -/
theorem completes_or_execHalts (i : Instr) (s : State) : (∃ t, Completes s i t) ∨ ∃ r, ExecHalts s i r := by
  cases i with
  | cls => exact .inl ⟨_, .cls⟩
  | ret =>
    cases hs : s.stack with
    | nil => exact .inr ⟨_, .ret hs⟩
    | cons a rest => exact .inl ⟨_, .ret a rest hs⟩
  | jp nnn => exact .inl ⟨_, .jp nnn⟩
  | call nnn =>
    obtain h | h := Nat.lt_or_ge s.stack.length 16
    · exact .inl ⟨_, .call nnn h⟩
    · exact .inr ⟨_, .call nnn h⟩
  | se x nn => exact .inl ⟨_, .se x nn⟩
  | sne x nn => exact .inl ⟨_, .sne x nn⟩
  | ldVxNN x nn => exact .inl ⟨_, .ldVxNN x nn⟩
  | addVxNN x nn => exact .inl ⟨_, .addVxNN x nn⟩
  | ldVxVy x y => exact .inl ⟨_, .ldVxVy x y⟩
  | ldINNN nnn => exact .inl ⟨_, .ldINNN nnn⟩
  | drw x y n =>
    by_cases h : s.spriteInBounds n
    · exact .inl ⟨_, .drw x y n h⟩
    · exact .inr ⟨_, .sprite x y n h⟩
  | addIVx x => exact .inl ⟨_, .addIVx x⟩
  | unknown w => exact .inr ⟨_, .unknown w⟩

/-- The inversion of an instruction: it completed, or it halted and changed nothing else. -/
theorem exec_cases {i : Instr} {s t : State} (h : exec i s = .next t) :
    Completes s i t ∨ ∃ r, ExecHalts s i r ∧ t = s.halt r := by
  obtain ⟨t', ht⟩ | ⟨r, hr⟩ := completes_or_execHalts i s
  · rw [exec_of_completes ht] at h
    cases h
    exact .inl ht
  · rw [exec_of_execHalts hr] at h
    cases h
    exact .inr ⟨r, hr, rfl⟩

end Sys2Proof.Machine
end

section
/-!
PROOFS. Frames (spec/10_state.md): what an instruction that completes leaves unchanged, and what it can do to PC, to the registers
and to the call stack.
-/
namespace Sys2Proof.Machine

/-! ## Memory, run state and samples -/

theorem Completes.mem_eq {s t : State} {i : Instr} (h : Completes s i t) : t.mem = s.mem := by cases h <;> rfl

theorem Completes.run_eq {s t : State} {i : Instr} (h : Completes s i t) : t.run = s.run := by cases h <;> rfl

theorem Completes.stop_eq {s t : State} {i : Instr} (h : Completes s i t) : t.stop = s.stop := by cases h <;> rfl

theorem exec_mem {i : Instr} {s t : State} (h : exec i s = .next t) : t.mem = s.mem := by
  obtain hc | ⟨r, -, rfl⟩ := exec_cases h
  · exact hc.mem_eq
  · rfl

/-! ## Registers, PC and call stack -/

/-- An instruction writes one register, or none. -/
theorem Completes.v_cases {s t : State} {i : Instr} (h : Completes s i t) : t.v = s.v ∨ ∃ (x : VReg) (b : Byte), t.v = s.v.set x b := by
  cases h with
  | ldVxNN | addVxNN | ldVxVy => exact .inr ⟨_, _, rfl⟩
  | drw x y n => exact .inr ⟨15, _, s.drawSprite_v _ _ _⟩
  | cls | ret | jp | call | se | sne | ldINNN | addIVx => exact .inl rfl

/-- An instruction moves PC on by 2 or 4, or to an embedded address, or to the top of the call stack (R27, R114). -/
theorem Completes.pc_cases {s t : State} {i : Instr} (h : Completes s i t) :
    t.pc = s.pc + 2 ∨ t.pc = s.pc + 4 ∨ (∃ nnn, (i = .jp nnn ∨ i = .call nnn) ∧ t.pc = nnn.setWidth 16) ∨ t.pc ∈ s.stack := by
  cases h with
  | ret a rest h => exact .inr (.inr (.inr (by rw [h]; exact List.mem_cons_self)))
  | jp nnn => exact .inr (.inr (.inl ⟨nnn, .inl rfl, rfl⟩))
  | call nnn => exact .inr (.inr (.inl ⟨nnn, .inr rfl, rfl⟩))
  | se | sne =>
    dsimp only
    split
    · exact .inr (.inl rfl)
    · exact .inl rfl
  | drw => exact .inl (s.drawSprite_pc _ _ _)
  | cls | ldVxNN | addVxNN | ldVxVy | ldINNN | addIVx => exact .inl rfl

/-- An instruction keeps the call stack, or pushes PC + 2 below the depth bound, or pops the top (R31, R32). -/
theorem Completes.stack_cases {s t : State} {i : Instr} (h : Completes s i t) :
    t.stack = s.stack ∨ (s.stack.length < 16 ∧ t.stack = (s.pc + 2) :: s.stack) ∨ ∃ a, s.stack = a :: t.stack := by
  cases h with
  | ret a rest h => exact .inr (.inr ⟨a, h⟩)
  | call nnn h => exact .inr (.inl ⟨h, rfl⟩)
  | cls | jp | se | sne | ldVxNN | addVxNN | ldVxVy | ldINNN | addIVx | drw => exact .inl rfl

/-- What holds of every stacked address and of the next return address holds of every stacked address afterwards. -/
theorem Completes.forall_mem_stack {s t : State} {i : Instr} {P : Word → Prop} (h : Completes s i t)
    (hs : ∀ a ∈ s.stack, P a) (hp : P (s.pc + 2)) : ∀ a ∈ t.stack, P a := by
  obtain hkept | ⟨-, hpush⟩ | ⟨a, hpop⟩ := h.stack_cases
  · rwa [hkept]
  · rw [hpush]
    exact List.forall_mem_cons.mpr ⟨hp, hs⟩
  · rw [hpop] at hs
    exact (List.forall_mem_cons.mp hs).2

/-! ## The frames, chapter by chapter -/

/-- RET, JP, CALL, SE and SNE write PC, and RET and CALL the call stack or the run state besides. -/
theorem exec_controlTransfer {i : Instr} {s t : State}
    (hi : i = .ret ∨ (∃ nnn, i = .call nnn) ∨ (∃ nnn, i = .jp nnn) ∨ (∃ x nn, i = .se x nn) ∨ (∃ x nn, i = .sne x nn))
    (h : exec i s = .next t) :
    ∃ pc stack run, t = { s with pc := pc, stack := stack, run := run } ∧
      ((i ≠ .ret ∧ ∀ nnn, i ≠ .call nnn) → stack = s.stack ∧ run = s.run) := by
  obtain hc | ⟨r, hr, rfl⟩ := exec_cases h
  · cases hc with
    | ret => exact ⟨_, _, _, rfl, fun hne => absurd rfl hne.1⟩
    | call nnn => exact ⟨_, _, _, rfl, fun hne => absurd rfl (hne.2 nnn)⟩
    | jp | se | sne => exact ⟨_, _, _, rfl, fun _ => ⟨rfl, rfl⟩⟩
    | cls | ldVxNN | addVxNN | ldVxVy | ldINNN | addIVx | drw => simp at hi
  · refine ⟨_, _, _, rfl, fun hne => ?_⟩
    cases hr with
    | ret => exact absurd rfl hne.1
    | call nnn => exact absurd rfl (hne.2 nnn)
    | unknown | sprite => simp at hi

/-- Settles O34: PC, the call stack and the run state are all that the five write. -/
theorem controlTransferFrame : Obligations.ControlTransferFrame := by
  intro i s t hi h
  obtain ⟨_, _, _, rfl, hkeep⟩ := exec_controlTransfer hi h
  exact ⟨fun _ => rfl, rfl, fun _ _ => rfl, fun _ => rfl, rfl, rfl, hkeep⟩

/-- Each register operation sets its register and advances PC. -/
theorem exec_registerOperation {x y : VReg} {nn : Byte} {i : Instr} (s : State)
    (hi : i = .ldVxNN x nn ∨ i = .addVxNN x nn ∨ i = .ldVxVy x y) :
    ∃ b, exec i s = .next { s with v := s.v.set x b, pc := s.pc + 2 } := by
  obtain rfl | rfl | rfl := hi
  · exact ⟨_, exec_ldVxNN x nn s⟩
  · exact ⟨_, exec_addVxNN x nn s⟩
  · exact ⟨_, exec_ldVxVy x y s⟩

/-- Settles O38: register x and PC are all that the three write. -/
theorem registerOperationFrame : Obligations.RegisterOperationFrame := by
  intro x y nn i s t hi h
  obtain ⟨b, hb⟩ := exec_registerOperation s hi
  cases hb.symm.trans h
  exact ⟨State.readV_set_v_of_ne rfl, rfl, rfl, fun _ _ => rfl, fun _ => rfl, rfl, rfl, rfl⟩

/-- Each address-register operation sets I and advances PC. -/
theorem exec_addressOperation {nnn : Addr} {x : VReg} {i : Instr} (s : State) (hi : i = .ldINNN nnn ∨ i = .addIVx x) :
    ∃ a, exec i s = .next { s with i := a, pc := s.pc + 2 } := by
  obtain rfl | rfl := hi
  · exact ⟨_, exec_ldINNN nnn s⟩
  · exact ⟨_, exec_addIVx x s⟩

/-- Settles O41: I and PC are all that the two write. -/
theorem addressOperationFrame : Obligations.AddressOperationFrame := by
  intro nnn x i s t hi h
  obtain ⟨a, ha⟩ := exec_addressOperation s hi
  cases ha.symm.trans h
  exact ⟨fun _ => rfl, rfl, fun _ _ => rfl, fun _ => rfl, rfl, rfl, rfl⟩

/-- Settles O48: CLS writes pixels and PC; DRW writes VF besides and counts the draw, or halts. -/
theorem displayFrame : Obligations.DisplayFrame := by
  rintro x y n i s t (rfl | rfl) h
  · cases (exec_cls s).symm.trans h
    exact ⟨fun _ _ => rfl, rfl, rfl, fun _ => rfl, rfl, fun _ => ⟨rfl, rfl⟩, fun hi => Instr.noConfusion hi⟩
  · by_cases hn : s.spriteInBounds n
    · cases (exec_drw_of_inBounds x y hn).symm.trans h
      refine ⟨fun z hz => s.drawn_readV_of_ne x y n ?_, rfl, rfl, fun _ => rfl, rfl, fun hi => Instr.noConfusion hi,
        fun _ => .inl ⟨rfl, rfl⟩⟩
      exact hz.resolve_right (fun hi => Instr.noConfusion hi)
    · cases (exec_drw_of_outOfBounds x y hn).symm.trans h
      exact ⟨fun _ _ => rfl, rfl, rfl, fun _ => rfl, rfl, fun hi => Instr.noConfusion hi, fun _ => .inr ⟨rfl, rfl⟩⟩

/-! ## Pixels (R36) -/

/-- On another frame buffer an instruction other than DRW completes in the same state but for the frame buffer. -/
theorem Completes.with_fb {s t : State} {i : Instr} (h : Completes s i t) (fb : FrameBuffer 64 32) :
    (∃ fb', Completes { s with fb := fb } i { t with fb := fb' }) ∨
    ∃ x y n, i = .drw x y n ∧ s.spriteInBounds n ∧ t = s.drawn x y n := by
  cases h with
  | cls => exact .inl ⟨_, .cls⟩
  | ret a rest h => exact .inl ⟨fb, .ret a rest h⟩
  | jp nnn => exact .inl ⟨fb, .jp nnn⟩
  | call nnn h => exact .inl ⟨fb, .call nnn h⟩
  | se x nn => exact .inl ⟨fb, .se x nn⟩
  | sne x nn => exact .inl ⟨fb, .sne x nn⟩
  | ldVxNN x nn => exact .inl ⟨fb, .ldVxNN x nn⟩
  | addVxNN x nn => exact .inl ⟨fb, .addVxNN x nn⟩
  | ldVxVy x y => exact .inl ⟨fb, .ldVxVy x y⟩
  | ldINNN nnn => exact .inl ⟨fb, .ldINNN nnn⟩
  | addIVx x => exact .inl ⟨fb, .addIVx x⟩
  | drw x y n h => exact .inr ⟨x, y, n, rfl, h, rfl⟩

theorem ExecHalts.with_fb {s : State} {i : Instr} {r : HaltReason} (h : ExecHalts s i r) (fb : FrameBuffer 64 32) :
    ExecHalts { s with fb := fb } i r := by
  cases h with
  | unknown w => exact .unknown w
  | ret empty => exact .ret empty
  | call nnn full => exact .call nnn full
  | sprite x y n out => exact .sprite x y n out

/-- Settles O27: the pixels decide neither whether an instruction halts nor what it writes, but for the flag and the pixels of a
draw. -/
theorem frameBufferIsUnobserved : Obligations.FrameBufferIsUnobserved := by
  intro i s t fb h
  obtain hc | ⟨r, hr, rfl⟩ := exec_cases h
  · obtain ⟨fb', hc'⟩ | ⟨x, y, n, rfl, hn, rfl⟩ := hc.with_fb fb
    · exact ⟨_, exec_of_completes hc', rfl, fun _ _ => rfl, fun _ => rfl⟩
    · refine ⟨_, exec_drw_of_inBounds x y (s := { s with fb := fb }) hn, rfl, fun z hz => ?_,
        fun hne => absurd rfl (hne x y n)⟩
      rw [State.drawn_readV_of_ne _ x y n hz, State.drawn_readV_of_ne _ x y n hz]
      rfl
  · exact ⟨_, exec_of_execHalts (hr.with_fb fb), rfl, fun _ _ => rfl, fun _ => rfl⟩

end Sys2Proof.Machine
end

section
/-!
PROOFS. The step (spec/40_step_cycle.md, spec/60_exceptions.md): from a running machine it halts by a row of the halt table
`StepHalts` and changes nothing but the run state, or its instruction completes.
-/
namespace Sys2Proof.Machine

/-! ## The stages -/

theorem step_of_fetch {s : State} (hrun : s.run = .running) (go : s.stopSample = false) (pc : s.pc.toNat < 0x0FFF) :
    step s = exec (decode s.wordAtPC) s.takeSample :=
  (step_of_go hrun go).trans (fetchAndExecute_of_lt (s := s.takeSample) pc)

theorem step_of_fetch_outOfBounds {s : State} (hrun : s.run = .running) (go : s.stopSample = false)
    (pc : 0x0FFF ≤ s.pc.toNat) : step s = .next (s.takeSample.halt .addressingFault) :=
  (step_of_go hrun go).trans (fetchAndExecute_of_ge (s := s.takeSample) pc)

/-- Settles O17: an in-bounds fetch hands the word at PC to the decoder, and `cycleOn` at this hardware's configuration is `step`. -/
theorem stepRunsDecodedInstruction : Obligations.StepRunsDecodedInstruction := by
  refine ⟨step_eq_cycleOn, fun s i _ hrun go pc hi => ?_⟩
  rw [step_of_fetch hrun go pc, ← hi]
  rfl

/-- Settles O18: the two ranges of PC are the two outcomes of the fetch. -/
theorem fetchBounds : Obligations.FetchBounds :=
  fun _ hrun go => ⟨step_of_fetch_outOfBounds hrun go, step_of_fetch hrun go⟩

/-- Settles O19: the sample is tested before the fetch. -/
theorem stopHaltsBeforeFetch : Obligations.StopHaltsBeforeFetch := fun _ hrun stop => step_of_stop hrun stop

theorem exec_next (i : Instr) (s : State) : ∃ t, exec i s = .next t := by
  obtain ⟨t, ht⟩ | ⟨r, hr⟩ := completes_or_execHalts i s
  · exact ⟨t, exec_of_completes ht⟩
  · exact ⟨_, exec_of_execHalts hr⟩

theorem step_next_of_running {s : State} (hrun : s.run = .running) : ∃ t, step s = .next t := by
  cases hs : s.stopSample with
  | true => exact ⟨_, step_of_stop hrun hs⟩
  | false =>
    obtain pc | pc := Nat.lt_or_ge s.pc.toNat 0x0FFF
    · rw [step_of_fetch hrun hs pc]
      exact exec_next _ _
    · exact ⟨_, step_of_fetch_outOfBounds hrun hs pc⟩

/-- Settles O21: every instruction completes or halts, and so does every stage before it. -/
theorem runningStateAlwaysSteps : Obligations.RunningStateAlwaysSteps := ⟨fun _ => step_next_of_running, exec_next⟩

/-- Settles O20: a halted state answers its reason, and a running one answers a next state. -/
theorem haltedStateHasNoStep : Obligations.HaltedStateHasNoStep := by
  refine fun s r => ⟨fun h => ?_, step_of_halted⟩
  cases hrun : s.run with
  | running =>
    obtain ⟨t, ht⟩ := step_next_of_running hrun
    exact nomatch h.symm.trans ht
  | halted r' =>
    rw [step_of_halted hrun] at h
    cases h
    rfl

/-- Settles O49: a word outside the family table decodes to Unknown, whose meaning is the halt. -/
theorem unknownHaltsAlone : Obligations.UnknownHaltsAlone := by
  refine ⟨exec_unknown, fun s hrun go pc hw => ?_⟩
  rw [step_of_fetch hrun go pc, decode_of_unsupported hw, exec_unknown]
  rfl

/-! ## The halt table (R200, R203) -/

theorem step_of_stepHalts {s : State} {r : HaltReason} (hrun : s.run = .running) (h : StepHalts s r) :
    step s = .next (s.takeSample.halt r) := by
  cases h with
  | externalStop stop => exact step_of_stop hrun stop
  | fetch go pc => exact step_of_fetch_outOfBounds hrun go pc
  | unknown go pc w op => rw [step_of_fetch hrun go pc, op, exec_unknown]
  | ret go pc op empty => rw [step_of_fetch hrun go pc, op, exec_ret_of_nil (s := s.takeSample) empty]
  | call go pc nnn op full => rw [step_of_fetch hrun go pc, op, exec_call_of_full nnn (s := s.takeSample) full]
  | sprite go pc x y n op out =>
    rw [step_of_fetch hrun go pc, op, exec_drw_of_outOfBounds x y (s := s.takeSample) out]

theorem step_of_completes {s t : State} (hrun : s.run = .running) (go : s.stopSample = false) (pc : s.pc.toNat < 0x0FFF)
    (h : Completes s.takeSample (decode s.wordAtPC) t) : step s = .next t := by
  rw [step_of_fetch hrun go pc, exec_of_completes h]

/-- The halts of the instruction at PC are rows of the table. -/
theorem stepHalts_of_execHalts {s : State} {r : HaltReason} (go : s.stopSample = false) (pc : s.pc.toNat < 0x0FFF)
    (h : ExecHalts s.takeSample (decode s.wordAtPC) r) : StepHalts s r := by
  generalize op : decode s.wordAtPC = i at h
  cases h with
  | unknown w => exact .unknown go pc w op
  | ret empty => exact .ret go pc op empty
  | call nnn full => exact .call go pc nnn op full
  | sprite x y n out => exact .sprite go pc x y n op out

/-- The inversion of a step by its effect: the run state alone, or the completed instruction. -/
theorem step_halts_or_completes {s t : State} (h : step s = .next t) :
    s.run = .running ∧
      ((∃ r, StepHalts s r ∧ t = s.takeSample.halt r) ∨
       (s.stopSample = false ∧ s.pc.toNat < 0x0FFF ∧ Completes s.takeSample (decode s.wordAtPC) t)) := by
  obtain ⟨hrun, ⟨stop, rfl⟩ | ⟨go, pc, rfl⟩ | ⟨go, pc, hexec⟩⟩ := step_cases h
  · exact ⟨hrun, .inl ⟨_, .externalStop stop, rfl⟩⟩
  · exact ⟨hrun, .inl ⟨_, .fetch go pc, rfl⟩⟩
  · obtain hc | ⟨r, hr, rfl⟩ := exec_cases hexec
    · exact ⟨hrun, .inr ⟨go, pc, hc⟩⟩
    · exact ⟨hrun, .inl ⟨r, stepHalts_of_execHalts go pc hr, rfl⟩⟩

/-- Settles O22: a completed instruction keeps the run state, and a halt keeps all else. -/
theorem stepIsAtomic : Obligations.StepIsAtomic := by
  intro s t h
  obtain ⟨hrun, ⟨r, -, rfl⟩ | ⟨-, -, hc⟩⟩ := step_halts_or_completes h
  · exact .inr ⟨r, rfl⟩
  · exact .inl (hc.run_eq.trans hrun)

/-- Settles O23: each row of the table halts the step with its reason, and a step that no row halts goes on running. -/
theorem haltReasonsAreTheTable : Obligations.HaltReasonsAreTheTable := by
  intro s t h r
  obtain ⟨hrun, hcases⟩ := step_halts_or_completes h
  constructor
  · intro hr
    obtain ⟨r', hr', rfl⟩ | ⟨-, -, hc⟩ := hcases
    · cases hr
      exact hr'
    · exact nomatch hr.symm.trans (hc.run_eq.trans hrun)
  · intro hr
    rw [step_of_stepHalts hrun hr] at h
    cases h
    rfl

/-! ## Memory, registers and call stack over a step -/

theorem step_mem {s t : State} (h : step s = .next t) : t.mem = s.mem := by
  obtain ⟨-, ⟨r, -, rfl⟩ | ⟨-, -, hc⟩⟩ := step_halts_or_completes h
  · rfl
  · exact hc.mem_eq

theorem step_stop {s t : State} (h : step s = .next t) : t.stop = s.stop.tail := by
  obtain ⟨-, ⟨r, -, rfl⟩ | ⟨-, -, hc⟩⟩ := step_halts_or_completes h
  · rfl
  · exact hc.stop_eq

/-- Settles O50: neither a completed instruction nor a halt writes memory. -/
theorem noInstructionWritesMemory : Obligations.NoInstructionWritesMemory :=
  ⟨fun _ _ _ h => ⟨exec_mem h, fun _ => by rw [exec_mem h]⟩, fun _ _ => step_mem⟩

/-- Settles O51: at most one register is written and at most one entry pushed or popped. -/
theorem stepChangesLittle : Obligations.StepChangesLittle := by
  intro s t h
  obtain ⟨-, ⟨r, -, rfl⟩ | ⟨-, -, hc⟩⟩ := step_halts_or_completes h
  · exact ⟨⟨0, fun _ _ => rfl⟩, .inl rfl⟩
  · constructor
    · obtain hv | ⟨x, b, hv⟩ := hc.v_cases
      · exact ⟨0, fun y _ => State.readV_congr hv y⟩
      · exact ⟨x, State.readV_set_v_of_ne hv⟩
    · exact hc.stack_cases.imp_right (Or.imp_left And.right)

/-! ## The placed instruction (R242) -/

theorem State.withFetchWord_pc_lt (s : State) (w : Nat) : (s.withFetchWord 16 w).pc.toNat < 0x0FFF := by
  show (if inBounds s.pc.toNat 2 then s.pc else 0x0200).toNat < 0x0FFF
  split
  next h =>
    have := (inBounds_iff _ _).mp h
    omega
  next => decide

theorem State.withFetchWord_stopSample (s : State) (w : Nat) : (s.withFetchWord 16 w).stopSample = false := by
  show (if s.stopSample then false :: s.stop.tail else s.stop).headD false = false
  split
  next => rfl
  next h => exact Bool.eq_false_iff.mpr h

theorem State.withFetchWord_wordAtPC {s : State} (w : Nat) (hm : s.mem.wf) :
    (s.withFetchWord 16 w).wordAtPC = BitVec.ofNat 16 w := by
  obtain ⟨hi, lo, hw⟩ := exists_bytes_of_word (BitVec.ofNat 16 w)
  have hpc := s.withFetchWord_pc_lt w
  have hmem : (s.withFetchWord 16 w).mem = s.mem.setBytes (s.withFetchWord 16 w).pc.toNat [hi, lo] := by
    rw [← bigEndianBytes_append, ← hw]
    rfl
  have hlen : (s.withFetchWord 16 w).pc.toNat + [hi, lo].length ≤ 4096 := by
    simp only [List.length_cons, List.length_nil]
    omega
  rw [State.wordAtPC, hmem, Memory.byteAt_setBytes hm _ _ hlen, Memory.byteAt_setBytes hm _ _ hlen, hw]
  simp

/-- Settles O24: the placed state runs, its sample is not asserted, and the word at its PC is the one placed. -/
theorem placedWordRunsNext : Obligations.PlacedWordRunsNext := by
  intro s w hm
  rw [step_of_fetch rfl (s.withFetchWord_stopSample w) (s.withFetchWord_pc_lt w), State.withFetchWord_wordAtPC w hm]

/-! ## Later samples and the draw count (R118, R180) -/

/-- The state with other stop samples, and `k` draws more counted. -/
def State.withHost (s : State) (stop : List Bool) (k : Nat) : State := { s with stop := stop, drawDone := s.drawDone + k }

theorem Completes.withHost {s t : State} {i : Instr} (h : Completes s i t) (stop : List Bool) (k : Nat) :
    Completes (s.withHost stop k) i (t.withHost stop k) := by
  cases h with
  | cls => exact .cls
  | ret a rest h => exact .ret a rest h
  | jp nnn => exact .jp nnn
  | call nnn h => exact .call nnn h
  | se x nn => exact .se x nn
  | sne x nn => exact .sne x nn
  | ldVxNN x nn => exact .ldVxNN x nn
  | addVxNN x nn => exact .addVxNN x nn
  | ldVxVy x y => exact .ldVxVy x y
  | ldINNN nnn => exact .ldINNN nnn
  | addIVx x => exact .addIVx x
  | drw x y n h =>
    have hcount : (s.drawn x y n).withHost stop k = (s.withHost stop k).drawn x y n := by
      show { s.drawn x y n with stop := stop, drawDone := s.drawDone + 1 + k } = _
      rw [Nat.add_right_comm]
      rfl
    rw [hcount]
    exact .drw x y n h

theorem StepHalts.withHost {s : State} {r : HaltReason} {stop : List Bool} (h : StepHalts s r)
    (hstop : stop.headD false = s.stopSample) (k : Nat) : StepHalts (s.withHost stop k) r := by
  cases h with
  | externalStop asserted => exact .externalStop (hstop.trans asserted)
  | fetch go pc => exact .fetch (hstop.trans go) pc
  | unknown go pc w op => exact .unknown (hstop.trans go) pc w op
  | ret go pc op empty => exact .ret (hstop.trans go) pc op empty
  | call go pc nnn op full => exact .call (hstop.trans go) pc nnn op full
  | sprite go pc x y n op out => exact .sprite (hstop.trans go) pc x y n op out

/-- A step depends on the host's fields only by its own stop sample. -/
theorem step_withHost {s t : State} {stop : List Bool} (h : step s = .next t) (hstop : stop.headD false = s.stopSample)
    (k : Nat) : step (s.withHost stop k) = .next (t.withHost stop.tail k) := by
  obtain ⟨hrun, ⟨r, hr, rfl⟩ | ⟨go, pc, hc⟩⟩ := step_halts_or_completes h
  · exact step_of_stepHalts hrun (hr.withHost hstop k)
  · exact step_of_completes (s := s.withHost stop k) hrun (hstop.trans go) pc (hc.withHost stop.tail k)

/-- Settles O25: the samples differ past the first alone, and the count stays. -/
theorem laterStopSamplesUnread : Obligations.LaterStopSamplesUnread :=
  fun s _ b later h => step_withHost (s := { s with stop := [b] }) (stop := b :: later) h rfl 0

/-- Settles O26: the samples stay, and the count is raised alike before and after. -/
theorem drawDoneIsUnobserved : Obligations.DrawDoneIsUnobserved := by
  intro s t k h
  have hhost := step_withHost h (stop := s.stop) rfl k
  rw [← step_stop h] at hhost
  exact hhost

end Sys2Proof.Machine
end

section
/-!
PROOFS. The machine invariant of every run, and PC's parity (spec/10_state.md R27, R28, R30).
-/
namespace Sys2Proof.Machine

theorem toNat_embedded (nnn : Addr) : (nnn.setWidth 16 : Word).toNat = nnn.toNat := by
  have := nnn.isLt
  rw [BitVec.toNat_setWidth]
  omega

/-! ## The invariant -/

theorem Completes.inv {s t : State} {i : Instr} (h : Completes s i t) (hs : s.Inv) (hpc : s.pc.toNat < 0x0FFF) : t.Inv where
  memory := h.mem_eq ▸ hs.memory
  depth := by
    have := hs.depth
    obtain hkept | ⟨hlt, hpush⟩ | ⟨a, hpop⟩ := h.stack_cases
    · rwa [hkept]
    · rw [hpush, List.length_cons]
      omega
    · rw [hpop, List.length_cons] at this
      omega
  pcTop := by
    obtain h2 | h4 | ⟨nnn, -, htarget⟩ | hret := h.pc_cases
    · rw [h2]
      bv_omega
    · rw [h4]
      bv_omega
    · have := nnn.isLt
      rw [htarget, toNat_embedded]
      omega
    · exact (hs.returns _ hret).trans (by omega)
  returns := h.forall_mem_stack hs.returns (by bv_omega)

theorem step_keeps_inv {s t : State} (hs : s.Inv) (h : step s = .next t) : t.Inv := by
  obtain ⟨hmem, hdepth, hpc, hret⟩ := hs
  obtain ⟨-, ⟨r, -, rfl⟩ | ⟨-, pc, hc⟩⟩ := step_halts_or_completes h
  · exact ⟨hmem, hdepth, hpc, hret⟩
  · exact hc.inv ⟨hmem, hdepth, hpc, hret⟩ pc

/-- Settles O52: a halt changes no field the invariant speaks of; an instruction that completes was fetched below 0x0FFF, so PC and
the return address it may push stay in their bounds. -/
theorem stepKeepsInvariant : Obligations.StepKeepsInvariant := fun _ _ => step_keeps_inv

/-- What every step of a machine keeps holds of every state a run reaches. -/
theorem run_keeps {M : Host.Core} {P : M.State → Prop} (hstep : ∀ s t, P s → M.step s = .next t → P t) (k : Nat)
    {s t : M.State} (hs : P s) (h : M.run k s = .next t) : P t := by
  induction k generalizing s with
  | zero =>
    cases h
    exact hs
  | succ k ih =>
    rw [Host.Core.run] at h
    split at h
    next s' hs' => exact ih (hstep s s' hs hs') h
    next => exact nomatch h
    next => exact nomatch h

/-- Settles O53, by induction on the number of steps. -/
theorem runKeepsInvariant : Obligations.RunKeepsInvariant := 
  fun k _ _ hs h => run_keeps (M := core) (P := State.Inv) (fun _ _ => step_keeps_inv) k hs h

/-! ## Parity -/

theorem Completes.even {s t : State} {i : Instr} (h : Completes s i t) (hs : s.Even) (hi : Instr.evenTarget i) : t.Even where
  pc := by
    have hpc := hs.pc
    obtain h2 | h4 | ⟨nnn, hcase, htarget⟩ | hret := h.pc_cases
    · rw [h2]
      bv_omega
    · rw [h4]
      bv_omega
    · rw [htarget, toNat_embedded]
      obtain rfl | rfl := hcase <;> exact hi
    · exact hs.returns _ hret
  returns := h.forall_mem_stack hs.returns (by have := hs.pc; bv_omega)

/-- Settles O54: PC moves by an even number, to an even return address, or to the embedded address, whose parity it takes. -/
theorem evenPCUnlessOddTarget : Obligations.EvenPCUnlessOddTarget := by
  refine ⟨fun s t hs h hi => ?_, fun nnn s t hodd => ⟨fun h => ?_, fun h hlt => ?_⟩⟩
  · obtain ⟨hpc, hret⟩ := hs
    obtain ⟨-, ⟨r, -, rfl⟩ | ⟨-, -, hc⟩⟩ := step_halts_or_completes h
    · exact ⟨hpc, hret⟩
    · exact hc.even ⟨hpc, hret⟩ hi
  · rw [exec_jp] at h
    cases h
    rwa [toNat_embedded]
  · rw [exec_call_of_lt nnn hlt] at h
    cases h
    rwa [toNat_embedded]

end Sys2Proof.Machine
end

section
/-!
PROOFS. The memory operations (spec/20_memory.md): bounds, byte order, and that a canonical memory is determined by its reads.
-/
namespace Sys2Proof.Machine

theorem inBounds_of_le {addr n : Nat} (h : addr + n - 1 ≤ 0xFFF) : inBounds addr n = true :=
  (inBounds_iff addr n).mpr (.inr (Nat.lt_succ_of_le h))

theorem inBounds_eq_false {addr n : Nat} (hn : 1 ≤ n) (h : 0xFFF < addr + n - 1) : inBounds addr n = false := by
  rw [Bool.eq_false_iff, ne_eq, inBounds_iff]
  omega

/-! ## MemRead (R53) -/

theorem Memory.memRead_of_outOfBounds (m : Memory) {addr n : Nat} (hn : 1 ≤ n) (h : 0xFFF < addr + n - 1) :
    m.memRead addr n = .error .addressingFault := by
  rw [Memory.memRead, Memory.readBytes_error m (inBounds_eq_false hn h), Except.map]

theorem Memory.memRead_of_inBounds (m : Memory) {addr n : Nat} (h : addr + n - 1 ≤ 0xFFF) :
    m.memRead addr n = .ok (bigEndian (m.bytesFrom addr n)) := by
  rw [Memory.memRead, Memory.readBytes_ok m (inBounds_of_le h), Except.map]

theorem Memory.bigEndian_bytesFrom_lt (m : Memory) (addr n : Nat) : bigEndian (m.bytesFrom addr n) < 256 ^ n := by
  simpa only [Memory.bytesFrom_length] using bigEndian_lt (m.bytesFrom addr n)

theorem Memory.bigEndian_bytesFrom_digit (m : Memory) (addr : Nat) {n k : Nat} (hk : k < n) :
    bigEndian (m.bytesFrom addr n) / 256 ^ (n - 1 - k) % 256 = (m.byteAt (addr + k)).toNat := by
  have hlen : k < (m.bytesFrom addr n).length := by rwa [Memory.bytesFrom_length]
  simpa only [Memory.bytesFrom_length, Memory.bytesFrom_getElem] using bigEndian_digit (m.bytesFrom addr n) k hlen

theorem Memory.memRead_one (m : Memory) {a : Nat} (h : a ≤ 0xFFF) : m.memRead a 1 = .ok (m.byteAt a).toNat := by
  rw [m.memRead_of_inBounds (by omega)]
  simp [Memory.bytesFrom, bigEndian]

/-- Settles O13: the digits of the assembled value are the bytes, a write is read back, and a step keeps the memory. -/
theorem memReadIsBigEndian : Obligations.MemReadIsBigEndian := by
  refine ⟨fun m _ _ => m.memRead_of_outOfBounds, fun m addr n _ h => ?_, fun m a b hm ha => ⟨?_, fun a' ha' => ?_⟩,
    fun s t h a => by rw [step_mem h]⟩
  · exact ⟨_, m.memRead_of_inBounds h, m.bigEndian_bytesFrom_lt addr n, fun k hk => m.bigEndian_bytesFrom_digit addr hk⟩
  · rw [Memory.memRead_one _ ha, Memory.byteAt_setByte hm, if_pos rfl]
  · rw [Memory.byteAt_setByte hm, if_neg ha']

/-! ## MemWrite (R54) -/

theorem Memory.memWrite_of_outOfBounds (m : Memory) {addr n : Nat} (v : Nat) (hn : 1 ≤ n) (h : 0xFFF < addr + n - 1) :
    m.memWrite addr n v = .error .addressingFault := by
  rw [Memory.memWrite, if_neg (by rw [inBounds_eq_false hn h]; decide)]

theorem Memory.memWrite_of_inBounds (m : Memory) {addr n : Nat} (v : Nat) (h : addr + n - 1 ≤ 0xFFF) :
    m.memWrite addr n v = .ok (m.setBytes addr (bigEndianBytes n v)) := by
  rw [Memory.memWrite, if_pos (inBounds_of_le h)]

/-- What a memory reads as after a value of `n` bytes has been stored. -/
theorem Memory.byteAt_setBytes_bigEndianBytes {m : Memory} (hm : m.wf) {addr n : Nat} (v : Nat) (h : addr + n ≤ 4096) (a : Nat) :
    (m.setBytes addr (bigEndianBytes n v)).byteAt a =
      if addr ≤ a ∧ a < addr + n then (bigEndianBytes n v).getD (a - addr) 0 else m.byteAt a := by
  rw [Memory.byteAt_setBytes hm _ _ (by rwa [bigEndianBytes_length]), bigEndianBytes_length]

/-- Settles O14: in bounds the write stores the digits of the value from `addr` up and no byte elsewhere. -/
theorem memWriteStoresBigEndian : Obligations.MemWriteStoresBigEndian := by
  intro m addr n v hm hn
  refine ⟨m.memWrite_of_outOfBounds v hn, fun h => ?_⟩
  have hw := m.memWrite_of_inBounds v h
  have hread := Memory.byteAt_setBytes_bigEndianBytes hm v (show addr + n ≤ 4096 by omega)
  refine ⟨_, hw, Memory.wf_memWrite hm hw, fun k hk => ?_, fun a ha => ?_⟩
  · rw [hread, if_pos (by omega), Nat.add_sub_cancel_left, bigEndianBytes_digit n v k hk]
  · rw [hread, if_neg (by omega)]

/-! ## The canonical form (R50) -/

theorem Memory.mem_iff_byteAt {m : Memory} (hm : m.wf) (a : Nat) (b : Byte) :
    (a, b) ∈ m ↔ m.byteAt a = b ∧ b ≠ Memory.unlisted := by
  refine ⟨fun h => ⟨Memory.byteAt_of_mem hm h, (hm.2 _ h).2⟩, fun ⟨hb, hne⟩ => ?_⟩
  by_contra hnot
  refine hne (hb.symm.trans (Memory.byteAt_of_not_mem fun b' hb' => hnot ?_))
  rwa [← hb, Memory.byteAt_of_mem hm hb']

theorem Memory.byteAt_ext {m m' : Memory} (hm : m.wf) (hm' : m'.wf) (h : ∀ a, a ≤ 0xFFF → m.byteAt a = m'.byteAt a) (a : Nat) :
    m.byteAt a = m'.byteAt a := by
  obtain ha | ha := Nat.lt_or_ge a 4096
  · exact h a (by omega)
  · rw [Memory.byteAt_of_ge hm ha, Memory.byteAt_of_ge hm' ha]

/-- Settles O15: the two lists have the same entries, and each is in strictly rising order of the addresses. -/
theorem equalReadsEqualMemories : Obligations.EqualReadsEqualMemories := by
  intro m m' hm hm' h
  have hmem : ∀ c : Host.Cell, c ∈ m ↔ c ∈ m' := fun (a, b) => by
    rw [Memory.mem_iff_byteAt hm, Memory.mem_iff_byteAt hm', Memory.byteAt_ext hm hm' h]
  have hirrefl : Std.Irrefl fun p q : Host.Cell => p.1 < q.1 := ⟨fun _ => Nat.lt_irrefl _⟩
  have hantisymm : Std.Antisymm fun p q : Host.Cell => p.1 < q.1 := ⟨fun _ _ hpq hqp => absurd hpq (Nat.lt_asymm hqp)⟩
  exact List.Pairwise.eq_of_mem_iff hm.1 hm'.1 hmem

end Sys2Proof.Machine
end

section
/-!
PROOFS. Draws (spec/44_display.md): the pixels and the flag after DRW in terms of the pixels that the sprite covers.
-/
namespace Sys2Proof.Machine

/-! ## What the sprite of a draw covers -/

/-- Whether the sprite that DRW reads at I puts a 1 on row py, column px (R171, R173). -/
def State.covers (s : State) (x y : VReg) (n : Nibble) (py : Fin 32) (px : Fin 64) : Bool :=
  spriteCovers (s.readV x).toNat (s.readV y).toNat (s.mem.bytesFrom s.i.toNat n.toNat) py px

theorem State.covers_iff (s : State) (x y : VReg) (n : Nibble) (py : Fin 32) (px : Fin 64) :
    s.covers x y n py px = true ↔
      ∃ row bit, row < n.toNat ∧ bit < 8 ∧ screenRow 32 ((s.readV y).toNat + row) = py ∧
        column 64 ((s.readV x).toNat + bit) = px ∧ (s.mem.byteAt (s.i.toNat + row)).getLsbD (7 - bit) = true :=
  spriteCovers_bytesFrom _ _ _ _ _ _ _

/-- Each sprite bit lands on a pixel of its own. -/
theorem State.covers_at (s : State) (x y : VReg) {n : Nibble} {row bit : Nat} (hrow : row < n.toNat) (hbit : bit < 8) :
    s.covers x y n (screenRow 32 ((s.readV y).toNat + row)) (column 64 ((s.readV x).toNat + bit)) =
      (s.mem.byteAt (s.i.toNat + row)).getLsbD (7 - bit) := by
  have hn := n.isLt
  rw [Bool.eq_iff_iff, State.covers_iff]
  constructor
  · rintro ⟨row', bit', hrow', hbit', hy, hx, hs⟩
    rwa [screenRow_inj (by omega) (by omega) hy, column_inj (by decide) hbit' hbit hx] at hs
  · exact fun hs => ⟨row, bit, hrow, hbit, rfl, rfl, hs⟩

/-- The draw meets a set pixel with a 1 of the sprite (R174). -/
def State.drawCollides (s : State) (x y : VReg) (n : Nibble) : Prop :=
  ∃ py px, s.fb.pixel py px = true ∧ s.covers x y n py px = true

theorem State.drawCollides_iff (s : State) (x y : VReg) (n : Nibble) :
    s.drawCollides x y n ↔
      ∃ row bit, row < n.toNat ∧ bit < 8 ∧ (s.mem.byteAt (s.i.toNat + row)).getLsbD (7 - bit) = true ∧
        s.fb.pixel (screenRow 32 ((s.readV y).toNat + row)) (column 64 ((s.readV x).toNat + bit)) = true := by
  constructor
  · rintro ⟨py, px, hp, hc⟩
    obtain ⟨row, bit, hrow, hbit, rfl, rfl, hs⟩ := (s.covers_iff x y n py px).mp hc
    exact ⟨row, bit, hrow, hbit, hs, hp⟩
  · rintro ⟨row, bit, hrow, hbit, hs, hp⟩
    exact ⟨_, _, hp, (s.covers_at x y hrow hbit).trans hs⟩

/-! ## The drawn state -/

theorem State.sprite_length_le (s : State) (n : Nibble) : (s.mem.bytesFrom s.i.toNat n.toNat).length ≤ 32 := by
  have := n.isLt
  rw [Memory.bytesFrom_length]
  omega

theorem State.drawn_pixel (s : State) (x y : VReg) (n : Nibble) (py : Fin 32) (px : Fin 64) :
    (s.drawn x y n).fb.pixel py px = xor (s.fb.pixel py px) (s.covers x y n py px) :=
  pixel_drawRows _ _ _ _ (by decide) (s.sprite_length_le n) py px

theorem State.drawn_flag_of_collides {s : State} {x y : VReg} {n : Nibble} (h : s.drawCollides x y n) :
    (s.drawn x y n).readV 15 = 1 := by
  classical
  rw [State.drawn, State.drawSprite_readV, if_pos rfl, drawFlag_eq _ _ _ _ (s.sprite_length_le n)]
  exact if_pos h

theorem State.drawn_flag_of_not_collides {s : State} {x y : VReg} {n : Nibble} (h : ¬ s.drawCollides x y n) :
    (s.drawn x y n).readV 15 = 0 := by
  classical
  rw [State.drawn, State.drawSprite_readV, if_pos rfl, drawFlag_eq _ _ _ _ (s.sprite_length_le n)]
  exact if_neg h

theorem State.drawn_flag_eq_one_iff (s : State) (x y : VReg) (n : Nibble) :
    (s.drawn x y n).readV 15 = 1 ↔ s.drawCollides x y n := by
  refine ⟨fun h => ?_, State.drawn_flag_of_collides⟩
  by_contra hnot
  rw [State.drawn_flag_of_not_collides hnot] at h
  exact absurd h (by decide)

/-- Settles O43: each bit of the sprite is XORed into its own pixel, and the flag tells whether one met a set pixel. -/
theorem drawComposesSprite : Obligations.DrawComposesSprite := by
  intro x y n s hn
  refine ⟨_, exec_drw_of_inBounds x y hn, fun row bit hrow hbit => ?_, fun py px hfar => ?_, fun h => ?_, fun h => ?_,
    fun z hz => s.drawn_readV_of_ne x y n hz, State.drawSprite_eq s _ _ _⟩
  · exact (s.drawn_pixel x y n _ _).trans (congrArg _ (s.covers_at x y hrow hbit))
  · have hnone : s.covers x y n py px = false := by
      rw [Bool.eq_false_iff, ne_eq, State.covers_iff]
      rintro ⟨row, bit, hrow, hbit, hy, hx, -⟩
      exact (hfar row bit hrow hbit).elim (· hy.symm) (· hx.symm)
    rw [State.drawn_pixel, hnone, Bool.xor_false]
  · exact State.drawn_flag_of_collides ((s.drawCollides_iff x y n).mpr h)
  · exact State.drawn_flag_of_not_collides (mt (s.drawCollides_iff x y n).mp h)

/-- A draw turns off exactly the set pixels that the sprite covers. -/
theorem State.drawn_turns_off_iff (s : State) (x y : VReg) (n : Nibble) (py : Fin 32) (px : Fin 64) :
    (s.fb.pixel py px = true ∧ (s.drawn x y n).fb.pixel py px = false) ↔
      (s.fb.pixel py px = true ∧ s.covers x y n py px = true) := by
  rw [State.drawn_pixel]
  cases s.fb.pixel py px <;> simp

/-- Settles O44: the pixels turned off are those where the draw collides. -/
theorem collisionIsSetToUnset : Obligations.CollisionIsSetToUnset := by
  intro x y n s hn
  refine ⟨_, exec_drw_of_inBounds x y hn, rfl, fun ⟨py, px, hoff⟩ => ?_, fun hkeep => ?_, fun py px => ?_⟩
  · exact State.drawn_flag_of_collides ⟨py, px, (s.drawn_turns_off_iff x y n py px).mp hoff⟩
  · refine State.drawn_flag_of_not_collides fun ⟨py, px, hc⟩ => ?_
    obtain ⟨hp, hoff⟩ := (s.drawn_turns_off_iff x y n py px).mpr hc
    exact absurd (hkeep py px hp) (by rw [hoff]; decide)
  · rw [s.drawn_turns_off_iff x y n py px, s.covers_iff x y n py px]
    refine and_congr_right fun _ => exists₂_congr fun row bit => ?_
    rw [Fin.ext_iff, Fin.ext_iff, val_screenRow, val_column, eq_comm, eq_comm (a := _ % 64)]

/-! ## Two draws (R178) -/

/-- A draw leaves its own sprite where it was, unless its coordinates are in VF. -/
theorem State.drawn_covers (s : State) {x y : VReg} (n : Nibble) (hx : x ≠ 15) (hy : y ≠ 15) :
    (s.drawn x y n).covers x y n = s.covers x y n := by
  unfold State.covers
  rw [s.drawn_readV_of_ne x y n hx, s.drawn_readV_of_ne x y n hy]
  rfl

theorem State.drawn_drawn_fb (s : State) {x y : VReg} (n : Nibble) (hx : x ≠ 15) (hy : y ≠ 15) :
    ((s.drawn x y n).drawn x y n).fb = s.fb := by
  refine FrameBuffer.ext_pixel fun py px => ?_
  rw [State.drawn_pixel, s.drawn_covers n hx hy, State.drawn_pixel, Bool.xor_assoc, Bool.xor_self, Bool.xor_false]

/-- The second of two draws collides exactly where the first set a pixel. -/
theorem State.drawn_drawCollides_iff (s : State) {x y : VReg} (n : Nibble) (hx : x ≠ 15) (hy : y ≠ 15) :
    (s.drawn x y n).drawCollides x y n ↔
      ∃ py px, s.fb.pixel py px = false ∧ (s.drawn x y n).fb.pixel py px = true := by
  unfold State.drawCollides
  refine exists₂_congr fun py px => ?_
  rw [s.drawn_covers n hx hy, State.drawn_pixel]
  cases s.fb.pixel py px <;> cases s.covers x y n py px <;> decide

/-- After a draw that met no set pixel, the same draw again collides if the sprite has a 1 at all. -/
theorem State.drawn_drawCollides_of_not_collides {s : State} {x y : VReg} {n : Nibble} (hx : x ≠ 15) (hy : y ≠ 15)
    (h : ¬ s.drawCollides x y n) : (s.drawn x y n).drawCollides x y n ↔
      ∃ row bit, row < n.toNat ∧ bit < 8 ∧ (s.mem.byteAt (s.i.toNat + row)).getLsbD (7 - bit) = true := by
  constructor
  · rintro ⟨py, px, -, hc⟩
    rw [s.drawn_covers n hx hy] at hc
    obtain ⟨row, bit, hrow, hbit, -, -, hs⟩ := (s.covers_iff x y n py px).mp hc
    exact ⟨row, bit, hrow, hbit, hs⟩
  · rintro ⟨row, bit, hrow, hbit, hs⟩
    have hc := (s.covers_at x y hrow hbit).trans hs
    have hp := Bool.eq_false_iff.mpr fun hp => h ⟨_, _, hp, hc⟩
    refine ⟨_, _, ?_, (congrFun₂ (s.drawn_covers n hx hy) _ _).trans hc⟩
    rw [State.drawn_pixel, hp, hc, Bool.false_xor]

/-- Settles O47: the second draw XORs the same bits into the same pixels, and so undoes the first. -/
theorem drawTwiceRestores : Obligations.DrawTwiceRestores := by
  intro x y n s hx hy hn
  have hfb := s.drawn_drawn_fb n hx hy
  have hcollides := s.drawn_drawCollides_iff n hx hy
  refine ⟨_, _, exec_drw_of_inBounds x y hn, exec_drw_of_inBounds x y (s := s.drawn x y n) hn, hfb, fun py px => ?_,
    fun h => ?_, fun h => ?_, fun hflag => ?_⟩
  · rw [hfb]
    exact and_comm
  · exact State.drawn_flag_of_collides (hcollides.mpr h)
  · exact State.drawn_flag_of_not_collides (mt hcollides.mp h)
  · have hfirst : ¬ s.drawCollides x y n := fun h => by
      rw [State.drawn_flag_of_collides h] at hflag
      exact absurd hflag (by decide)
    rw [State.drawn_flag_eq_one_iff, State.drawn_drawCollides_of_not_collides hx hy hfirst]

end Sys2Proof.Machine
end

section
/-!
PROOFS. Every reset (spec/70_reset_and_hazards.md, spec/10_state.md R45): the reset values, the images that do not load, and the
invariant.
-/
namespace Sys2Proof.Machine

theorem State.readV_reset (x : VReg) : State.reset.readV x = 0 := by
  rw [State.readV, State.reset_v, Fin.getElem_fin, Vector.getElem_replicate]

/-- Settles O55: the fields of the reset state, its registers and its pixels. -/
theorem resetValues : Obligations.ResetValues :=
  ⟨State.readV_reset, rfl, rfl, rfl, FrameBuffer.pixel_blank, fun _ => rfl, rfl, rfl, rfl⟩

/-- A state with a canonical memory and, but for the host's fields and the run state, the reset values meets the invariant. -/
theorem inv_of_reset {mem : Memory} (hm : mem.wf) (run : RunState) (stop : List Bool) :
    State.Inv { State.reset with mem := mem, run := run, stop := stop } where
  memory := hm
  depth := Nat.zero_le 16
  pcTop := show (0x0200 : Word).toNat ≤ 0x1002 by decide
  returns := List.forall_mem_nil _

/-- Settles O56: the stack is empty, the memory lists nothing, and PC is 0x200. -/
theorem resetMeetsInvariant : Obligations.ResetMeetsInvariant :=
  ⟨inv_of_reset Memory.wf_nil .running [], rfl, List.forall_mem_nil _⟩

/-- Settles O58: the reset reads nothing of the state but the host's samples. -/
theorem resetDiscardsAllState : Obligations.ResetDiscardsAllState := by
  intro init image s heven hlen
  refine ⟨_, State.resetWith_of_loads init s.stop heven hlen, rfl, State.readV_reset, rfl, rfl, rfl, FrameBuffer.pixel_blank,
    rfl, fun s' hs' => ?_⟩
  rw [State.hostReset, hs', State.resetWith_of_loads init s.stop heven hlen]

/-- Settles O59: the length is tested first and leaves the memory filled; then the parity refuses. -/
theorem resetRejectsBadImages : Obligations.ResetRejectsBadImages := by
  intro init image stop
  obtain ⟨tooLarge, oddLength, -⟩ := State.resetWith_eq init image stop
  refine ⟨fun hlen => ⟨_, tooLarge hlen, fun a ha => Memory.byteAt_filled init (Nat.lt_succ_of_le ha), rfl⟩, fun hlen => ?_⟩
  exact oddLength (Nat.not_lt.mpr hlen)

theorem resetWith_inv {init : Nat → Byte} {image : List Byte} {stop : List Bool} {t : State}
    (h : State.resetWith init image stop = .next t) : t.Inv := by
  obtain ⟨tooLarge, oddLength, loads⟩ := State.resetWith_eq init image stop
  by_cases hlen : 3584 < image.length
  · cases (tooLarge hlen).symm.trans h
    exact inv_of_reset (Memory.wf_filled init) _ _
  · obtain heven | hodd := Nat.mod_two_eq_zero_or_one image.length
    · cases (loads hlen heven).symm.trans h
      exact inv_of_reset (wf_loadedMemory init image (Nat.not_lt.mp hlen)) _ _
    · exact nomatch (oddLength hlen hodd).symm.trans h

/-- A memory filled with what an unlisted address reads as lists nothing. -/
theorem Memory.filled_unlisted : Memory.filled (fun _ => Memory.unlisted) = [] := by
  rw [Memory.filled_eq]
  simp

/-- Settles O60: whichever way a reset ends in a state, the memory is canonical and the rest is at its reset value. -/
theorem everyResetMeetsInvariant : Obligations.EveryResetMeetsInvariant := by
  refine ⟨fun _ _ _ _ => resetWith_inv, ?_⟩
  have hmem : loadedMemory (fun _ => 0x00) [] = [] := Memory.filled_unlisted
  rw [State.resetWith_of_loads _ [] rfl (Nat.zero_le _), hmem]
  rfl

end Sys2Proof.Machine
end
